-- ==== Sys2Proof/Word.lean ====
section
/-! DEFINITION. The word types of the block: a byte and a 64-bit command word (spec/00_scope.md R9,
spec/30_encoding.md R60). Nothing here depends on how a command is decoded. -/

namespace Sys2Proof

/-- A byte, bit 0 least significant (spec/00_scope.md R9). -/
abbrev Byte := BitVec 8

/-- A command word: always 64 bits, bit 63 most significant (spec/30_encoding.md R60). -/
abbrev Cmd := BitVec 64

end Sys2Proof
end

