-- ==== Sys2Proof/Config.lean ====
section
/-! DEFINITION. What is fixed when the block is built: the constants of spec/00_scope.md R6 and the configuration
of spec/10_state.md R30, as plain data. The check a configuration must pass is in WellFormed.lean. -/

namespace Sys2Proof

/-- OUT_SIZE (spec/00_scope.md R6). -/
abbrev outSize : Nat := 39

/-- IN_SIZE, which is also BEATS (spec/00_scope.md R6). -/
abbrev inSize : Nat := 96

/-- PAD, the sentinel sent at beats 39 to 95 (spec/00_scope.md R6). -/
abbrev pad : Byte := 0xCD#8

/-- The two address spaces (spec/20_memory.md R40). -/
inductive Space where
  | out
  | inb
deriving DecidableEq, Repr

/-- How many bytes a space holds (spec/20_memory.md R40). -/
def Space.size : Space → Nat
  | .out => outSize
  | .inb => inSize

/-- A bit position in IN: byte 0 to 95, bit 0 to 7 (spec/10_state.md R30). -/
structure InBit where
  byte : Fin inSize
  bit : Fin 8
deriving DecidableEq, Repr

/-- DPAD_POS, the four raw d-pad bits of IN (spec/42_dpad_decoder.md R120). -/
structure DpadPos where
  up : InBit
  right : InBit
  down : InBit
  left : InBit
deriving DecidableEq, Repr

/-- LED_OFF, the five OUT bytes that SETLED writes (spec/43_setled.md R140). -/
structure LedOff where
  r : Fin outSize
  g : Fin outSize
  b : Fin outSize
  on : Fin outSize
  off : Fin outSize
deriving DecidableEq, Repr

/-- PW_ORDER, the byte order of pulse-width fields (spec/20_memory.md R46). -/
inductive PwOrder where
  | little
  | big
deriving DecidableEq, Repr

/-- TOUCH_LAYOUT, the bit layout of a finger record (spec/40_codec.md R92). -/
inductive TouchLayout where
  | lsbAlloc
  | msbAlloc
deriving DecidableEq, Repr

/-- BUF_RESET, what both buffers hold at reset (spec/70_reset_and_hazards.md R178). -/
inductive BufReset where
  | unwritten
  | zero
deriving DecidableEq, Repr

/-- IN's regions after the leading one, in the order of spec/20_memory.md R52 (its regions 2 to 9). -/
inductive RegionId where
  | reportId
  | sticks
  | buttons
  | triggers
  | inertial
  | battery
  | touchpad
  | mirror
deriving DecidableEq, Repr

/-- The place of a region in the order of spec/20_memory.md R52; the leading region is number 1. -/
def RegionId.rank : RegionId → Nat
  | .reportId => 2
  | .sticks => 3
  | .buttons => 4
  | .triggers => 5
  | .inertial => 6
  | .battery => 7
  | .touchpad => 8
  | .mirror => 9

/-- One region of IN as FIELD_MAP gives it. Its size is checked where spec/20_memory.md R52 gives one
(Region.sizeOk). -/
structure Region where
  id : RegionId
  start : Nat
  size : Nat
deriving DecidableEq, Repr

/-- What a named field is and where it lies (spec/20_memory.md R44 to R48, spec/40_codec.md R85 to R92): an override
flag of OUT or another one-bit field at (byte, bit), an 8-bit field, a pulse width, an inertial reading of IN, or a
finger record of IN. That FIELD_MAP names fields of these widths only, and the packet counter and the battery/USB nibbles
(whose widths and layout spec/91_not_in_source.md leaves open) only through their region or their bytes and bits, is the
model's choice (DESIGN CHOICE: log 30). -/
inductive FieldShape where
  | overrideFlag (byte bit : Nat)
  | flag (space : Space) (byte bit : Nat)
  | byte8 (space : Space) (offset : Nat)
  | pulseWidth (space : Space) (offset : Nat)
  | inertial (offset : Nat)
  | finger (offset : Nat)
deriving DecidableEq, Repr

/-- A named field of OUT or IN. -/
structure NamedField where
  name : String
  shape : FieldShape
deriving DecidableEq, Repr

/-- FIELD_MAP: IN's regions and the named fields, as far as the builder gives them (spec/00_scope.md R8; DEDUCED: it may
be partial, as the example of spec/92_eei_decisions.md D36 is; log 10). -/
structure FieldMap where
  regions : List Region
  fields : List NamedField
deriving DecidableEq, Repr

/-- The parameters the spec leaves OPEN, which only the site that builds the block knows (spec/00_scope.md R8). -/
structure SiteParams where
  selId : Int
  dpadPos : DpadPos
  ledOff : LedOff
  fieldMap : FieldMap
  leadLen : Fin 96
  touchValidActive : Bool
deriving DecidableEq, Repr

/-- The block's configuration (spec/10_state.md R30): the site's parameters and the three for which the spec has a
choice of its own. -/
structure Config extends SiteParams where
  pwOrder : PwOrder
  touchLayout : TouchLayout
  bufReset : BufReset
deriving DecidableEq, Repr

/-- A configuration as a builder writes it down, before any check: positions and offsets are plain numbers. -/
structure BuildArgs where
  selId : Int
  dpadUp : Nat × Nat
  dpadRight : Nat × Nat
  dpadDown : Nat × Nat
  dpadLeft : Nat × Nat
  ledR : Nat
  ledG : Nat
  ledB : Nat
  ledOn : Nat
  ledOff : Nat
  fieldMap : FieldMap
  leadLen : Nat
  touchValidActive : Bool
  pwOrder : PwOrder
  touchLayout : TouchLayout
  bufReset : BufReset
deriving DecidableEq, Repr

end Sys2Proof
end

