-- ==== Sys2Proof/Syntax.lean ====
section
/-! DEFINITION. The commands of spec/opcode_table.json, one constructor a row, and the assembler's lines and the
pseudo-instructions built from commands (spec/30_encoding.md R67, R68). -/

namespace Sys2Proof

/-- The six commands (spec/30_encoding.md R64). Operands are the 8-bit fields of the command word; the index is not
checked here (spec/30_encoding.md R62, R63). -/
inductive Instr where
  | wrout (idx data : BitVec 8)
  | rdout (idx : BitVec 8)
  | wrin (idx data : BitVec 8)
  | rdin (idx : BitVec 8)
  | exch
  | setled (r g b on off : BitVec 8)
deriving DecidableEq, Repr

/-- One assembler line before its operands are checked (spec/30_encoding.md R67): the mnemonics of the table, and
UPDATE, which is EXCH (spec/30_encoding.md R68). -/
inductive AsmLine where
  | wrout (idx data : Nat)
  | rdout (idx : Nat)
  | wrin (idx data : Nat)
  | rdin (idx : Nat)
  | exch
  | setled (r g b on off : Nat)
  | update
deriving DecidableEq, Repr

/-- The pseudo-instructions (spec/30_encoding.md R68), with the operands of spec/40_codec.md R85 to R92. -/
inductive Pseudo where
  | update
  | setbit (space : Space) (byte : BitVec 8) (bit : Fin 8) (value : Bool)
  | getbit (space : Space) (byte : BitVec 8) (bit : Fin 8)
  | setpw (space : Space) (offset : BitVec 8) (value : BitVec 16)
  | getpw (space : Space) (offset : BitVec 8)
  | getimu (offset : BitVec 8)
  | gettouch (offset : BitVec 8)
deriving DecidableEq, Repr

end Sys2Proof
end

