-- ==== Sys2Proof/WellFormed.lean ====
section
/-! DEFINITION. The checks: an assembler line (spec/30_encoding.md R67) and a configuration
(spec/60_exceptions.md R163, one definition a clause). Every Instr is well-formed by its type, since each operand is
an 8-bit field. -/

namespace Sys2Proof

/-- Each operand must fit its 8-bit field, or the assembler rejects the line (spec/30_encoding.md R67). -/
def AsmLine.wf : AsmLine → Bool
  | .wrout idx data => idx < 256 && data < 256
  | .rdout idx => idx < 256
  | .wrin idx data => idx < 256 && data < 256
  | .rdin idx => idx < 256
  | .exch => true
  | .setled r g b on off => r < 256 && g < 256 && b < 256 && on < 256 && off < 256
  | .update => true

/-- The space a field lies in. Override flags are bits of OUT; inertial readings and finger records are in IN
(spec/00_scope.md R12, spec/40_codec.md R89, R92). -/
def FieldShape.space : FieldShape → Space
  | .overrideFlag _ _ => .out
  | .flag sp _ _ => sp
  | .byte8 sp _ => sp
  | .pulseWidth sp _ => sp
  | .inertial _ => .inb
  | .finger _ => .inb

/-- Whether every byte and bit of a field exists in its space: clause 5 of spec/60_exceptions.md R163 for the 2-byte
fields and the finger records, and the "in range" of spec/92_eei_decisions.md D5 for the others (DEDUCED: log 11). -/
def FieldShape.inRange : FieldShape → Bool
  | .overrideFlag byte bit => byte < outSize && bit < 8
  | .flag sp byte bit => byte < sp.size && bit < 8
  | .byte8 sp o => o < sp.size
  | .pulseWidth sp o => o + 1 < sp.size
  | .inertial o => o + 1 < inSize
  | .finger o => o + 3 < inSize

/-- The eight bits of one byte. -/
def byteBits (o : Nat) : List (Nat × Nat) := (List.range 8).map fun n => (o, n)

/-- The (byte, bit) pairs a field occupies in its space. -/
def FieldShape.bits : FieldShape → List (Nat × Nat)
  | .overrideFlag byte bit => [(byte, bit)]
  | .flag _ byte bit => [(byte, bit)]
  | .byte8 _ o => byteBits o
  | .pulseWidth _ o => byteBits o ++ byteBits (o + 1)
  | .inertial o => byteBits o ++ byteBits (o + 1)
  | .finger o => byteBits o ++ byteBits (o + 1) ++ byteBits (o + 2) ++ byteBits (o + 3)

/-- Two fields share no bit (spec/60_exceptions.md R163, clause 7). -/
def FieldShape.disjoint (f g : FieldShape) : Bool :=
  f.space != g.space || f.bits.all fun p => !g.bits.contains p

/-- Every two members of a list, the earlier first, are related. -/
def pairwiseBool {α : Type} (r : α → α → Bool) : List α → Bool
  | [] => true
  | x :: xs => xs.all (r x) && pairwiseBool r xs

/-- The byte at which each region of IN starts, with its place in the order: the leading region starts at 0 when it is
not empty (spec/20_memory.md R52, spec/41_transfer.md R109; DEDUCED: log 10). -/
def SiteParams.regionStarts (p : SiteParams) : List (Nat × Nat) :=
  (if p.leadLen.val = 0 then [] else [(1, 0)]) ++ p.fieldMap.regions.map fun r => (r.id.rank, r.start)

/-- The positions DPAD_POS names, in the order up, right, down, left. -/
def DpadPos.positions (d : DpadPos) : List InBit := [d.up, d.right, d.down, d.left]

/-- The indices LED_OFF names, in the order r, g, b, on, off. -/
def LedOff.indices (l : LedOff) : List (Fin outSize) := [l.r, l.g, l.b, l.on, l.off]

/-- R163 clause 2: no two d-pad positions are equal, and each lies in the button-flag block where FIELD_MAP gives it. -/
def SiteParams.dpadOk (p : SiteParams) : Bool :=
  pairwiseBool (fun a b => a != b) p.dpadPos.positions &&
    p.fieldMap.regions.all fun r =>
      r.id != .buttons || p.dpadPos.positions.all fun q => r.start ≤ q.byte.val && q.byte.val < r.start + r.size

/-- R163 clause 3: the five LED indices are distinct. -/
def SiteParams.ledDistinct (p : SiteParams) : Bool := pairwiseBool (fun a b => a != b) p.ledOff.indices

/-- Whether a field is an override flag held in byte `b` of OUT. -/
def FieldShape.isFlagIn (b : Nat) : FieldShape → Bool
  | .overrideFlag byte _ => byte = b
  | _ => false

/-- R163 clause 4: no LED byte holds an override flag of FIELD_MAP. -/
def SiteParams.ledHoldsNoFlag (p : SiteParams) : Bool :=
  p.fieldMap.fields.all fun f => p.ledOff.indices.all fun b => !f.shape.isFlagIn b.val

/-- R163 clause 5, with every other field and region in range too (spec/92_eei_decisions.md D5, log 11). -/
def SiteParams.fieldsInRange (p : SiteParams) : Bool :=
  (p.fieldMap.fields.all fun f => f.shape.inRange) && p.fieldMap.regions.all fun r => r.start + r.size ≤ inSize

/-- R163 clause 6: the regions start at offsets that rise in the order of spec/20_memory.md R52. -/
def SiteParams.regionsRise (p : SiteParams) : Bool :=
  pairwiseBool
    (fun a b => (a.1 < b.1 && a.2 < b.2) || (b.1 < a.1 && b.2 < a.2)) p.regionStarts

/-- The sizes spec/20_memory.md R52 gives: four 8-bit stick axes, two trigger bytes, 12 bytes of inertial readings, and a
touchpad block that holds two 4-byte records besides its counter. It gives no size for the other regions
(DEDUCED: log 31). -/
def Region.sizeOk (r : Region) : Bool :=
  match r.id with
  | .sticks => r.size = 4
  | .triggers => r.size = 2
  | .inertial => r.size = 12
  | .touchpad => 8 ≤ r.size
  | .reportId => true
  | .buttons => true
  | .battery => true
  | .mirror => true

/-- Every region that is given has the size spec/20_memory.md R52 gives it (log 31). -/
def SiteParams.regionSizes (p : SiteParams) : Bool := p.fieldMap.regions.all Region.sizeOk

/-- R163 clause 7: no two fields of FIELD_MAP share a bit. -/
def SiteParams.fieldsDisjoint (p : SiteParams) : Bool :=
  pairwiseBool (fun f g => f.shape.disjoint g.shape) p.fieldMap.fields

/-- The check of spec/60_exceptions.md R163, and the region sizes of spec/20_memory.md R52. Clause 1, the ranges of clauses 2 and 3, and clause 8 hold by the types of
the fields; a builder's raw numbers meet them in BuildArgs.config?. -/
def SiteParams.wf (p : SiteParams) : Bool :=
  p.dpadOk && p.ledDistinct && p.ledHoldsNoFlag && p.fieldsInRange && p.regionsRise && p.fieldsDisjoint &&
    p.regionSizes

/-- A well-formed configuration (spec/60_exceptions.md R163). -/
def Config.wf (c : Config) : Bool := c.toSiteParams.wf

/-- A number as an index below `n`, or none. -/
def toFin? (n k : Nat) : Option (Fin n) := if h : k < n then some ⟨k, h⟩ else none

/-- A pair of numbers as a bit position of IN, or none (spec/60_exceptions.md R163, clause 2). -/
def toInBit? (p : Nat × Nat) : Option InBit := do
  let byte ← toFin? inSize p.1
  let bit ← toFin? 8 p.2
  return ⟨byte, bit⟩

/-- The configuration a builder's arguments give, or none where they fail spec/60_exceptions.md R163: clauses 1, 2 and 3
here as ranges, then Config.wf. -/
def BuildArgs.config? (a : BuildArgs) : Option Config := do
  let up ← toInBit? a.dpadUp
  let right ← toInBit? a.dpadRight
  let down ← toInBit? a.dpadDown
  let left ← toInBit? a.dpadLeft
  let r ← toFin? outSize a.ledR
  let g ← toFin? outSize a.ledG
  let b ← toFin? outSize a.ledB
  let on ← toFin? outSize a.ledOn
  let off ← toFin? outSize a.ledOff
  let leadLen ← toFin? 96 a.leadLen
  let c : Config :=
    { selId := a.selId, dpadPos := ⟨up, right, down, left⟩, ledOff := ⟨r, g, b, on, off⟩, fieldMap := a.fieldMap,
      leadLen := leadLen, touchValidActive := a.touchValidActive, pwOrder := a.pwOrder, touchLayout := a.touchLayout,
      bufReset := a.bufReset }
  if c.wf then some c else none

/-- The parameters of the example EX (spec/92_eei_decisions.md D36). Not a fact of the hardware: it serves tests, and
shows that some parameters pass the check. -/
def SiteParams.ex : SiteParams :=
  { selId := 0
    dpadPos := ⟨⟨6, 0⟩, ⟨6, 1⟩, ⟨6, 2⟩, ⟨6, 3⟩⟩
    ledOff := ⟨8, 9, 10, 11, 12⟩
    fieldMap :=
      { regions := []
        fields :=
          [⟨"LED override", .overrideFlag 0 0⟩, ⟨"PW_A", .pulseWidth .out 14⟩, ⟨"PW_A override", .overrideFlag 1 3⟩] }
    leadLen := 1
    touchValidActive := true }

/-- The whole example configuration EX (spec/92_eei_decisions.md D36). -/
def Config.ex : Config :=
  { SiteParams.ex with pwOrder := .little, touchLayout := .lsbAlloc, bufReset := .unwritten }

/-- Parameters together with the fact that they pass the check: a block is never built from others
(spec/70_reset_and_hazards.md R173). The default serves only to show that there are some. -/
structure CheckedParams where
  params : SiteParams := SiteParams.ex
  ok : params.wf = true := by decide
deriving Inhabited

/-- The parameters of the site that built the block: any that pass the check. It has no body, so no proof can use their
values (spec/00_scope.md R8; DESIGN CHOICE: log 6). -/
opaque Config.site : CheckedParams

/-- The configuration State.reset takes: the site's open parameters, and where the spec makes a choice of its own, that
choice (PW_ORDER LITTLE, D4, log 7; TOUCH_LAYOUT LSB_ALLOC, D24, log 8; BUF_RESET UNWRITTEN, D8, log 9). -/
def Config.built : Config :=
  { Config.site.params with pwOrder := .little, touchLayout := .lsbAlloc, bufReset := .unwritten }

end Sys2Proof
end

