-- ==== Sys2Proof/Decode.lean ====
section
/-! DEFINITION. The command decoder, total and rejecting by name, and the encoder (spec/30_encoding.md R60 to R66). -/

namespace Sys2Proof

/-- Bits `lo + width - 1` down to `lo` of a command word. -/
def Cmd.field (w : Cmd) (lo width : Nat) : BitVec width := w.extractLsb' lo width

/-- `op = w[63:56]` (spec/30_encoding.md R61). -/
def Cmd.op (w : Cmd) : BitVec 8 := w.field 56 8

/-- `idx = w[47:40]` (spec/30_encoding.md R62). -/
def Cmd.idx (w : Cmd) : BitVec 8 := w.field 40 8

/-- `data = w[7:0]` (spec/30_encoding.md R63). -/
def Cmd.data (w : Cmd) : BitVec 8 := w.field 0 8

/-- The bits marked 0 in format N, 55:0, are zero. -/
def Cmd.zerosN (w : Cmd) : Bool := w.field 0 56 == 0

/-- The bits marked 0 in format R, 55:48 and 39:0, are zero. -/
def Cmd.zerosR (w : Cmd) : Bool := w.field 48 8 == 0 && w.field 0 40 == 0

/-- The bits marked 0 in format W, 55:48 and 39:8, are zero. -/
def Cmd.zerosW (w : Cmd) : Bool := w.field 48 8 == 0 && w.field 8 32 == 0

/-- The bits marked 0 in format L, 55:40, are zero. -/
def Cmd.zerosL (w : Cmd) : Bool := w.field 40 16 == 0

/-- Why a word is no command (spec/30_encoding.md R66): its op byte is reserved, or a bit marked 0 is 1. -/
inductive Illegal where
  | reservedOp (op : BitVec 8)
  | reservedBits (op : BitVec 8)
deriving DecidableEq, Repr

/-- What the decoder answers: exactly one of the two for every word (spec/30_encoding.md R65). -/
inductive Decoded where
  | command (i : Instr)
  | illegal (why : Illegal)
deriving DecidableEq, Repr

/-- A command if its must-be-zero bits are zero (spec/30_encoding.md R66). -/
def Decoded.guard (w : Cmd) (zeros : Bool) (i : Instr) : Decoded :=
  if zeros then .command i else .illegal (.reservedBits w.op)

/-- The decoder (spec/30_encoding.md R61 to R66). -/
def decode (w : Cmd) : Decoded :=
  match w.op.toNat with
  | 0x01 => .guard w w.zerosW (.wrout w.idx w.data)
  | 0x02 => .guard w w.zerosR (.rdout w.idx)
  | 0x03 => .guard w w.zerosW (.wrin w.idx w.data)
  | 0x04 => .guard w w.zerosR (.rdin w.idx)
  | 0x05 => .guard w w.zerosN .exch
  | 0x06 => .guard w w.zerosL (.setled (w.field 32 8) (w.field 24 8) (w.field 16 8) (w.field 8 8) (w.field 0 8))
  | _ => .illegal (.reservedOp w.op)

/-- A word with op byte `op` and the number `rest` in its lower 56 bits. -/
def Cmd.make (op rest : Nat) : Cmd := BitVec.ofNat 64 (op * 2 ^ 56 + rest)

/-- The encoder: each command's one word (spec/30_encoding.md R61 to R64). -/
def encode : Instr → Cmd
  | .wrout idx data => Cmd.make 0x01 (idx.toNat * 2 ^ 40 + data.toNat)
  | .rdout idx => Cmd.make 0x02 (idx.toNat * 2 ^ 40)
  | .wrin idx data => Cmd.make 0x03 (idx.toNat * 2 ^ 40 + data.toNat)
  | .rdin idx => Cmd.make 0x04 (idx.toNat * 2 ^ 40)
  | .exch => Cmd.make 0x05 0
  | .setled r g b on off =>
    Cmd.make 0x06 (r.toNat * 2 ^ 32 + g.toNat * 2 ^ 24 + b.toNat * 2 ^ 16 + on.toNat * 2 ^ 8 + off.toNat)

/-- A row of the opcode table (spec/30_encoding.md R64): a word is the row's command exactly when masking it gives the
row's match value. -/
structure OpRow where
  mnemonic : String
  mtch : Cmd
  mask : Cmd
deriving DecidableEq, Repr

/-- The match and mask values of spec/30_encoding.md R64. -/
def opcodeTable : List OpRow :=
  [⟨"WROUT", 0x0100000000000000#64, 0xFFFF00FFFFFFFF00#64⟩,
   ⟨"RDOUT", 0x0200000000000000#64, 0xFFFF00FFFFFFFFFF#64⟩,
   ⟨"WRIN", 0x0300000000000000#64, 0xFFFF00FFFFFFFF00#64⟩,
   ⟨"RDIN", 0x0400000000000000#64, 0xFFFF00FFFFFFFFFF#64⟩,
   ⟨"EXCH", 0x0500000000000000#64, 0xFFFFFFFFFFFFFFFF#64⟩,
   ⟨"SETLED", 0x0600000000000000#64, 0xFFFFFF0000000000#64⟩]

/-- Whether a word matches a row: `(w & mask) == match` (spec/30_encoding.md R64). -/
def OpRow.matches (r : OpRow) (w : Cmd) : Bool := w &&& r.mask == r.mtch

/-- A command's mnemonic in spec/opcode_table.json. -/
def Instr.mnemonic : Instr → String
  | .wrout _ _ => "WROUT"
  | .rdout _ => "RDOUT"
  | .wrin _ _ => "WRIN"
  | .rdin _ => "RDIN"
  | .exch => "EXCH"
  | .setled _ _ _ _ _ => "SETLED"

/-- The command in a word numbered as spec/opcode_table.json numbers its bits: one 64-bit word, bits from `nbits` up
being zero. A number that needs more than 64 bits is no command word (spec/30_encoding.md R60; log 23). -/
def decodeTableWord (nbits w : Nat) : Option Instr :=
  if w % 2 ^ nbits < 2 ^ 64 then
    match decode (BitVec.ofNat 64 (w % 2 ^ nbits)) with
    | .command i => some i
    | .illegal _ => none
  else none

end Sys2Proof
end

