-- ==== Sys2Proof/Machine/State.lean ====
section
/-! DEFINITION. The block's state (spec/10_state.md) as plain data, its state after reset
(spec/70_reset_and_hazards.md R176 to R180), and the reasons a step can stop. -/

namespace Sys2Proof.Machine

/-- PHASE (spec/10_state.md R26). -/
inductive Phase where
  | idle
  | transacting
deriving DecidableEq, Repr

/-- SEL, the state of the select line (spec/10_state.md R28). -/
inductive Select where
  | asserted
  | deasserted
deriving DecidableEq, Repr

/-- The fault codes (spec/60_exceptions.md R151). -/
inductive FaultCode where
  | illegalCommand
  | indexOutOfRange
  | unwrittenRead
  | overlap
deriving DecidableEq, Repr

/-- The number of a fault code (spec/60_exceptions.md R151). -/
def FaultCode.number : FaultCode → Nat
  | .illegalCommand => 1
  | .indexOutOfRange => 2
  | .unwrittenRead => 3
  | .overlap => 4

/-- What FAULT records: code, command word, index (spec/10_state.md R31). IllegalCommand and Overlap record no index
(spec/60_exceptions.md R151; log 27). -/
structure FaultRecord where
  code : FaultCode
  word : Cmd
  index : Option Nat
deriving DecidableEq, Repr

/-- A bus event (spec/10_state.md R32). -/
inductive BusEvent where
  | assert (selId : Int)
  | beat (i : Nat) (mosi miso : Byte)
  | deassert (selId : Int)
deriving DecidableEq, Repr

/-- Who issues a command: the host that owns the block, or a second execution context (spec/20_memory.md R55). -/
inductive Issuer where
  | owner
  | other
deriving DecidableEq, Repr

/-- A command word on its way to the block, and who issues it (MODEL's own input; log 1). -/
structure Arrival where
  issuer : Issuer
  word : Cmd
deriving DecidableEq, Repr

/-- What the bus answers when the engine polls it at a beat: the received byte, which completes the beat, or nothing yet
(spec/41_transfer.md R106, R107; MODEL's own input; log 2). -/
inductive BusReply where
  | byte (miso : Byte)
  | stall
deriving DecidableEq, Repr

/-- A buffer: the cells that hold a byte, addresses strictly rising. A cell that is not listed holds ⊥
(spec/00_scope.md R11; log 4). -/
abbrev Memory := List Host.Cell

/-- Every piece of state the spec gives the block (spec/10_state.md section 1), and the model's two input queues. -/
structure State where
  out : Memory
  inb : Memory
  resp : Option Byte
  phase : Phase
  beat : Nat
  sel : Select
  fault : Option FaultRecord
  busLog : List BusEvent
  cfg : Config
  /-- MODEL's own: the command words still to arrive, in order of arrival (log 1). -/
  issued : List Arrival
  /-- MODEL's own: the bus's answers still to come; when the list is empty the bus does not answer (log 2). -/
  bus : List BusReply
deriving DecidableEq, Repr

/-- Why the machine stops. -/
inductive Fault where
  /-- Raised by exec and step when FAULT is already set: the block takes no step and executes no command
  (spec/60_exceptions.md R152, R158). Safe: the spec gives a faulted block no step. -/
  | halted (record : FaultRecord)
deriving DecidableEq, Repr

/-- Why there is no machine or no meaning. -/
inductive Refusal where
  /-- Raised by an arm of exec whose instruction has no meaning yet. Safe. -/
  | notModelled (mnemonic : String)
  /-- Raised by State.build for a configuration that fails the check of spec/60_exceptions.md R163: no block is built.
  Safe: the spec refuses it. -/
  | configRefused
  /-- Raised by Fleet.build for two instances with one SEL_ID (spec/60_exceptions.md R164). Safe: the spec refuses it. -/
  | duplicateSelId
  /-- Raised by Fleet.step for the number of an instance that was not built. Safe: it names no block. -/
  | noSuchInstance
  /-- Raised by writeField for a field that has no set view, or a value of another kind than the field's
  (spec/40_codec.md R85 to R92 give none). Safe: it names no operation of the spec. -/
  | noSetView
deriving DecidableEq, Repr

/-- The contents of a buffer of `n` bytes at reset (spec/70_reset_and_hazards.md R178). -/
def Memory.atReset (b : BufReset) (n : Nat) : Memory :=
  match b with
  | .unwritten => []
  | .zero => (List.range n).map fun a => (a, 0#8)

/-- The block right after it is built with configuration `c` (spec/70_reset_and_hazards.md R176 to R180). No command has
been issued and the bus has answered nothing (DESIGN CHOICE: log 1, log 2). -/
def State.resetWith (c : Config) : State :=
  { out := Memory.atReset c.bufReset outSize
    inb := Memory.atReset c.bufReset inSize
    resp := none
    phase := .idle
    beat := 0
    sel := .deasserted
    fault := none
    busLog := []
    cfg := c
    issued := []
    bus := [] }

/-- The machine after reset, with the configuration of the site that built it (log 6). -/
def State.reset : State := State.resetWith Config.built

/-- Building a block (spec/70_reset_and_hazards.md R170, R173): refused, and no block is built, where the arguments fail
the check of spec/60_exceptions.md R163. It is the only way to a block, so the only way out of FAULT or BusWait (R175,
log 26). -/
def State.build (a : BuildArgs) : Host.Outcome State Fault Refusal :=
  match a.config? with
  | some c => .next (State.resetWith c)
  | none => .refused .configRefused

end Sys2Proof.Machine
end

