-- ==== Sys2Proof/Machine/Flags.lean ====
section
/-! DEFINITION. The block has no condition codes (spec/10_state.md R29). This file holds the one-bit packet flags: a bit
of a byte (spec/00_scope.md R9, spec/20_memory.md R48), and the d-pad decode table (spec/42_dpad_decoder.md R123). -/

namespace Sys2Proof.Machine

/-- Bit `n` of a byte. -/
def bitOf (b : Byte) (n : Fin 8) : Bool := b.getLsbD n.val

/-- `(b & ~(1 << n)) | (v << n)` (spec/40_codec.md R85). -/
def withBit (b : Byte) (n : Fin 8) (v : Bool) : Byte :=
  (b &&& ~~~(1#8 <<< n.val)) ||| ((if v then 1#8 else 0#8) <<< n.val)

/-- The four decoded direction flags. -/
structure DpadFlags where
  up : Bool
  right : Bool
  down : Bool
  left : Bool
deriving DecidableEq, Repr

/-- `u*1 + r*2 + d*4 + l*8` (spec/42_dpad_decoder.md R121). -/
def directionCode (u r d l : Bool) : BitVec 4 := BitVec.ofNat 4 (u.toNat * 1 + r.toNat * 2 + d.toNat * 4 + l.toNat * 8)

/-- The normative decode table; codes 8 to 15 decode to no direction (spec/42_dpad_decoder.md R123). -/
def dpadTable (code : BitVec 4) : DpadFlags :=
  match code.toNat with
  | 0 => ⟨true, false, false, false⟩
  | 1 => ⟨true, true, false, false⟩
  | 2 => ⟨false, true, false, false⟩
  | 3 => ⟨false, true, true, false⟩
  | 4 => ⟨false, false, true, false⟩
  | 5 => ⟨false, false, true, true⟩
  | 6 => ⟨false, false, false, true⟩
  | 7 => ⟨true, false, false, true⟩
  | _ => ⟨false, false, false, false⟩

/-- The "output code" column of spec/42_dpad_decoder.md R123. -/
def DpadFlags.code (f : DpadFlags) : BitVec 4 := directionCode f.up f.right f.down f.left

/-- The direction code host software rebuilds from decoded flags: 0 to 7, or none for "no direction" and for flags that
no code decodes to (spec/70_reset_and_hazards.md R185). -/
def DpadFlags.rebuild (f : DpadFlags) : Option (BitVec 4) :=
  ((List.range 8).map (BitVec.ofNat 4)).find? fun c => dpadTable c == f

end Sys2Proof.Machine
end

