-- ==== Sys2Proof/Machine/Ops.lean ====
section
/-! DEFINITION. The named operations over the two buffers and the block's registers, and taking a fault, the block's one
exception entry (spec/60_exceptions.md R152, R159). There is no return from a fault (R160): only building the block anew,
State.build, leaves a faulted state. -/

namespace Sys2Proof.Machine

/-- The byte at address `a`, or none where the cell holds ⊥ (spec/00_scope.md R11). -/
def Memory.read : Memory → Nat → Option Byte
  | [], _ => none
  | (k, b) :: rest, a => if a = k then some b else Memory.read rest a

/-- Write one byte, keeping the addresses strictly rising (spec/20_memory.md R51: only the byte named changes). -/
def Memory.write : Memory → Nat → Byte → Memory
  | [], a, v => [(a, v)]
  | (k, b) :: rest, a, v =>
    if a < k then (a, v) :: (k, b) :: rest
    else if a = k then (a, v) :: rest
    else (k, b) :: Memory.write rest a v

/-- The addresses of a buffer rise strictly from `lo` and stay below `n`. -/
def Memory.wfFrom (n : Nat) : Nat → Memory → Bool
  | _, [] => true
  | lo, (k, _) :: rest => lo ≤ k && k < n && Memory.wfFrom n (k + 1) rest

/-- The canonical form of a buffer of `n` bytes: addresses strictly rising, every address below `n`
(spec/10_state.md R23). No entry can equal what an unlisted address reads as, which is ⊥. -/
def Memory.wf (n : Nat) (m : Memory) : Bool := Memory.wfFrom n 0 m

/-- The lowest address from `lo` on, among `k` of them, whose cell holds ⊥. -/
def Memory.lowestUnwritten (m : Memory) : (lo k : Nat) → Option Nat
  | _, 0 => none
  | lo, k + 1 => if (m.read lo).isNone then some lo else m.lowestUnwritten (lo + 1) k

/-- A bit of IN, or none where its byte is ⊥ (spec/42_dpad_decoder.md R120). -/
def Memory.readBit (m : Memory) (p : InBit) : Option Bool := (m.read p.byte.val).map fun b => bitOf b p.bit

/-- Write bit n of byte b only (spec/42_dpad_decoder.md R124). A byte that holds ⊥ stays ⊥ (log 14). -/
def Memory.writeBit (m : Memory) (p : InBit) (v : Bool) : Memory :=
  match m.read p.byte.val with
  | some b => m.write p.byte.val (withBit b p.bit v)
  | none => m

/-- The buffer of a space. -/
def State.mem (s : State) : Space → Memory
  | .out => s.out
  | .inb => s.inb

/-- `OUT[a] <- v` -/
def State.putOut (s : State) (a : Nat) (v : Byte) : State := { s with out := s.out.write a v }

/-- `IN[a] <- v` -/
def State.putIn (s : State) (a : Nat) (v : Byte) : State := { s with inb := s.inb.write a v }

/-- `RESP <- v` -/
def State.putResp (s : State) (v : Byte) : State := { s with resp := some v }

/-- `FAULT <- (code, w, index)` and nothing else (spec/60_exceptions.md R152). -/
def State.raise (s : State) (code : FaultCode) (w : Cmd) (index : Option Nat) : State :=
  { s with fault := some ⟨code, w, index⟩ }

/-- The command queue from here on (MODEL's own; log 1). -/
def State.withIssued (s : State) (q : List Arrival) : State := { s with issued := q }

/-- The bus's answers from here on (MODEL's own; log 2). -/
def State.withBus (s : State) (q : List BusReply) : State := { s with bus := q }

/-- The entry checks of every command with word `w`: FAULT already set, no step; then, the word being legal, Overlap while a
transaction is in progress (spec/60_exceptions.md R158, spec/40_codec.md preamble). -/
def guarded (w : Cmd) (s : State) (body : Host.Outcome State Fault Refusal) : Host.Outcome State Fault Refusal :=
  match s.fault with
  | some r => .fault (.halted r)
  | none =>
    match s.phase with
    | .transacting => .next (s.raise .overlap w none)
    | .idle => body

end Sys2Proof.Machine
end

