-- ==== Sys2Proof/Machine/Operands.lean ====
section
/-! DEFINITION. The one operand form of the byte commands, an absolute index checked against the size of its space
(spec/30_encoding.md R62, spec/20_memory.md R40), and the values of the multi-byte fields (spec/20_memory.md R45, R46,
spec/40_codec.md R92). -/

namespace Sys2Proof.Machine

/-- Run `k` at index `idx` of space `sp`, or raise IndexOutOfRange (spec/60_exceptions.md R154). -/
def atIndex (sp : Space) (idx : BitVec 8) (w : Cmd) (s : State) (k : Nat → State) : State :=
  if idx.toNat < sp.size then k idx.toNat else s.raise .indexOutOfRange w (some idx.toNat)

/-- `RESP <- S[a]`, or UnwrittenRead where the byte is ⊥ (spec/60_exceptions.md R155). -/
def readToResp (sp : Space) (w : Cmd) (s : State) (a : Nat) : State :=
  match (s.mem sp).read a with
  | some b => s.putResp b
  | none => s.raise .unwrittenRead w (some a)

/-- `S[a] <- v` -/
def writeByte (sp : Space) (v : Byte) (s : State) (a : Nat) : State :=
  match sp with
  | .out => s.putOut a v
  | .inb => s.putIn a v

/-- A pulse width from its bytes at o and o+1 (spec/20_memory.md R46). -/
def pwValue (order : PwOrder) (b0 b1 : Byte) : BitVec 16 :=
  match order with
  | .little => b1 ++ b0
  | .big => b0 ++ b1

/-- The bytes at o and o+1 of a pulse width (spec/40_codec.md R87). -/
def pwBytes (order : PwOrder) (v : BitVec 16) : Byte × Byte :=
  match order with
  | .little => (v.extractLsb' 0 8, v.extractLsb' 8 8)
  | .big => (v.extractLsb' 8 8, v.extractLsb' 0 8)

/-- An inertial reading from its bytes at o and o+1: big-endian, signed (spec/20_memory.md R45). -/
def imuValue (b0 b1 : Byte) : Int := (b0 ++ b1 : BitVec 16).toInt

/-- A finger record's four parts (spec/40_codec.md R92). -/
structure Finger where
  id : BitVec 7
  valid : Bool
  x : BitVec 12
  y : BitVec 12
deriving DecidableEq, Repr

/-- A finger record from its four bytes (spec/40_codec.md R92). -/
def fingerValue (layout : TouchLayout) (b0 b1 b2 b3 : Byte) : Finger :=
  match layout with
  | .lsbAlloc =>
    { id := b0.extractLsb' 0 7, valid := b0.getLsbD 7
      x := b2.extractLsb' 0 4 ++ b1, y := b3 ++ b2.extractLsb' 4 4 }
  | .msbAlloc =>
    { id := b0.extractLsb' 1 7, valid := b0.getLsbD 0
      x := b1 ++ b2.extractLsb' 4 4, y := b2.extractLsb' 0 4 ++ b3 }

/-- Whether a finger record says a finger is touching, by TOUCH_VALID_ACTIVE (spec/00_scope.md R8; log 22). -/
def Finger.touching (c : Config) (f : Finger) : Bool := f.valid == c.touchValidActive

end Sys2Proof.Machine
end

