-- ==== Sys2Proof/Machine/Codec.lean ====
section
/-! DEFINITION. The four byte commands (spec/40_codec.md R80 to R84). -/

namespace Sys2Proof.Machine

/-- WROUT idx, data (spec/40_codec.md R80). -/
def execWrout (idx data : BitVec 8) (s : State) : Host.Outcome State Fault Refusal :=
  let w := encode (.wrout idx data)
  guarded w s (.next (atIndex .out idx w s (writeByte .out data s)))

/-- RDOUT idx (spec/40_codec.md R81). -/
def execRdout (idx : BitVec 8) (s : State) : Host.Outcome State Fault Refusal :=
  let w := encode (.rdout idx)
  guarded w s (.next (atIndex .out idx w s (readToResp .out w s)))

/-- WRIN idx, data (spec/40_codec.md R82). -/
def execWrin (idx data : BitVec 8) (s : State) : Host.Outcome State Fault Refusal :=
  let w := encode (.wrin idx data)
  guarded w s (.next (atIndex .inb idx w s (writeByte .inb data s)))

/-- RDIN idx (spec/40_codec.md R83). -/
def execRdin (idx : BitVec 8) (s : State) : Host.Outcome State Fault Refusal :=
  let w := encode (.rdin idx)
  guarded w s (.next (atIndex .inb idx w s (readToResp .inb w s)))

end Sys2Proof.Machine
end

