-- ==== Sys2Proof/Machine/Led.lean ====
section
/-! DEFINITION. SETLED (spec/43_setled.md). -/

namespace Sys2Proof.Machine

/-- SETLED r, g, b, on, off: five OUT bytes, written in that order (spec/43_setled.md R140, spec/92_eei_decisions.md D33;
log 12). -/
def execSetled (r g b on off : BitVec 8) (s : State) : Host.Outcome State Fault Refusal :=
  let l := s.cfg.ledOff
  guarded (encode (.setled r g b on off)) s
    (.next (((((s.putOut l.r.val r).putOut l.g.val g).putOut l.b.val b).putOut l.on.val on).putOut l.off.val off))

end Sys2Proof.Machine
end

