-- ==== Sys2Proof/Machine/Transfer.lean ====
section
/-! DEFINITION. EXCH: the transaction, its bus events, and the d-pad decode that ends it (spec/41_transfer.md,
spec/42_dpad_decoder.md). The device's answers come from State.bus (log 2); where it gives none the engine waits at the
beat, which is BusWait (spec/60_exceptions.md R157), and a later step takes the transaction up again (log 3). -/

namespace Sys2Proof.Machine

/-- The raw direction code in IN, or none where one of its bytes is ⊥ (spec/42_dpad_decoder.md R120, R121). -/
def Memory.rawCode (m : Memory) (p : DpadPos) : Option (BitVec 4) :=
  match m.readBit p.up, m.readBit p.right, m.readBit p.down, m.readBit p.left with
  | some u, some r, some d, some l => some (directionCode u r d l)
  | _, _, _, _ => none

/-- DpadDecode (spec/42_dpad_decoder.md R124): all four bits are read before any is written. It has no failure mode
(R126); where a byte were ⊥, which no run reaches, IN stays as it is (log 14). -/
def Memory.dpadDecode (m : Memory) (p : DpadPos) : Memory :=
  match m.rawCode p with
  | some c =>
    let f := dpadTable c
    (((m.writeBit p.up f.up).writeBit p.right f.right).writeBit p.down f.down).writeBit p.left f.left
  | none => m

/-- The decode as the last step of an EXCH. -/
def State.decodeDpad (s : State) : State := { s with inb := s.inb.dpadDecode s.cfg.dpadPos }

/-- `BEAT <- 0; PHASE <- Transacting; SEL <- asserted; BusAssert(SEL_ID)` (spec/41_transfer.md R100, R101). -/
def State.beginTransaction (s : State) : State :=
  { s with beat := 0, phase := .transacting, sel := .asserted, busLog := s.busLog ++ [.assert s.cfg.selId] }

/-- `BusDeassert(SEL_ID); PHASE <- Idle; SEL <- deasserted` (spec/41_transfer.md R100, R104). BEAT stays 96 (log 13). -/
def State.endTransaction (s : State) : State :=
  { s with phase := .idle, sel := .deasserted, busLog := s.busLog ++ [.deassert s.cfg.selId] }

/-- The byte sent at the current beat: OUT[i] for i < 39 (none where it is ⊥), else PAD (spec/41_transfer.md R103). -/
def State.mosi (s : State) : Option Byte := if s.beat < outSize then s.out.read s.beat else some pad

/-- A beat completed: the event, `IN[i] <- miso`, `BEAT <- i + 1` (spec/41_transfer.md R100, R102, R103). -/
def State.completeBeat (s : State) (mosi miso : Byte) : State :=
  { s with inb := s.inb.write s.beat miso, beat := s.beat + 1, busLog := s.busLog ++ [.beat s.beat mosi miso] }

/-- Run the engine for the `n` beats that are left, then end the transaction and decode. At each beat the bus answers with
the next entry of State.bus; a stall or an empty list leaves the engine waiting at that beat (spec/41_transfer.md R107).
An OUT byte that were ⊥, which no run reaches since EXCH checks OUT first, would raise UnwrittenRead (log 14). -/
def runBeats : Nat → State → State
  | 0, s => s.endTransaction.decodeDpad
  | n + 1, s =>
    match s.mosi with
    | none => s.raise .unwrittenRead (encode .exch) (some s.beat)
    | some mosi =>
      match s.bus with
      | [] => s
      | .stall :: rest => s.withBus rest
      | .byte miso :: rest => runBeats n ((s.withBus rest).completeBeat mosi miso)

/-- The engine goes on from the current beat (spec/41_transfer.md R100). -/
def State.engine (s : State) : State := runBeats (inSize - s.beat) s

/-- EXCH (spec/41_transfer.md R100): every OUT byte is checked before any bus event, the lowest ⊥ index being reported. -/
def execExch (s : State) : Host.Outcome State Fault Refusal :=
  guarded (encode .exch) s
    (match s.out.lowestUnwritten 0 outSize with
    | some i => .next (s.raise .unwrittenRead (encode .exch) (some i))
    | none => .next s.beginTransaction.engine)

end Sys2Proof.Machine
end

