-- ==== Sys2Proof/Machine/Dispatch.lean ====
section
/-! DEFINITION. The meaning of every command, one arm a constructor (spec/30_encoding.md R64). -/

namespace Sys2Proof.Machine

def exec (i : Instr) (s : State) : Host.Outcome State Fault Refusal :=
  match i with
  | .wrout idx data => Sys2Proof.Machine.execWrout idx data s
  | .rdout idx => Sys2Proof.Machine.execRdout idx s
  | .wrin idx data => Sys2Proof.Machine.execWrin idx data s
  | .rdin idx => Sys2Proof.Machine.execRdin idx s
  | .exch => Sys2Proof.Machine.execExch s
  | .setled r g b on off => Sys2Proof.Machine.execSetled r g b on off s

end Sys2Proof.Machine
end

