-- ==== Sys2Proof/Machine/Fetch.lean ====
section
/-! DEFINITION. How the next command reaches the block. The block has no program counter and fetches no instruction
(spec/10_state.md R25): the issuers' words arrive in order from State.issued (log 1). -/

namespace Sys2Proof.Machine

/-- What the next step has to do. -/
inductive Fetched where
  /-- FAULT is set: no step. -/
  | halted (record : FaultRecord)
  /-- A legal command has arrived; the state has it taken from the queue. -/
  | run (i : Instr) (s : State)
  /-- No command runs: the engine has gone on, an idle block has waited, or an illegal word has faulted. -/
  | went (s : State)
deriving DecidableEq, Repr

/-- The word that arrives now, and the state with it taken from the queue. The owner is blocked while a transaction is in
progress, so its next word waits (spec/41_transfer.md R107, R108); a second issuer's word arrives at once
(spec/20_memory.md R55; log 18, log 25). The spec does not say who is blocked while a second issuer's own EXCH is in progress:
the model keeps no record of who issued it, so the owner's words wait and a second issuer's next word arrives at once
(DESIGN CHOICE: log 32). -/
def State.nextArrival (s : State) : Option (Cmd × State) :=
  match s.issued with
  | [] => none
  | a :: rest =>
    match s.phase, a.issuer with
    | .transacting, .owner => none
    | _, _ => some (a.word, s.withIssued rest)

/-- With no command arriving, an idle block waits for one (spec/70_reset_and_hazards.md R171; log 17) and a transaction goes
on. -/
def State.proceed (s : State) : State :=
  match s.phase with
  | .idle => s
  | .transacting => s.engine

/-- What the next step has to do, in the order of spec/60_exceptions.md R158: FAULT set, then IllegalCommand, then the
command with its own checks. -/
def fetch (s : State) : Fetched :=
  match s.fault with
  | some r => .halted r
  | none =>
    match s.nextArrival with
    | none => .went s.proceed
    | some (w, t) =>
      match decode w with
      | .command i => .run i t
      | .illegal _ => .went (t.raise .illegalCommand w none)

/-- The issuer whose word arrives at once in this phase. -/
def Phase.unblockedIssuer : Phase → Issuer
  | .idle => .owner
  | .transacting => .other

/-- The word `w` as the next arrival. -/
def State.issueNext (s : State) (w : Cmd) : State := s.withIssued (⟨s.phase.unblockedIssuer, w⟩ :: s.issued)

end Sys2Proof.Machine
end

