-- ==== Sys2Proof/Machine/Step.lean ====
section
/-! DEFINITION. One step of the block: the next arriving command, or the engine going on, or nothing. -/

namespace Sys2Proof.Machine

/-- One step. A faulted block takes none (spec/60_exceptions.md R152). -/
def step (s : State) : Host.Outcome State Fault Refusal :=
  match fetch s with
  | .halted r => .fault (.halted r)
  | .run i t => exec i t
  | .went t => .next t

/-- The state in which the word of spec/opcode_table.json's numbering is the next to arrive (log 1). -/
def State.withFetchWord (s : State) (nbits w : Nat) : State := s.issueNext (BitVec.ofNat 64 (w % 2 ^ nbits))

end Sys2Proof.Machine
end

