-- ==== Sys2Proof/Machine/Assembler.lean ====
section
/-! DEFINITION. The assembler of spec/30_encoding.md R67: one command a line, the mnemonic first, then operands separated by
commas, decimal or 0x hexadecimal, a semicolon starting a comment. -/

namespace Sys2Proof.Machine

/-- The command of a line whose operands fit their fields, else none (spec/30_encoding.md R67); UPDATE is EXCH (R68). -/
def assemble (l : AsmLine) : Option Instr :=
  if l.wf then
    some (match l with
      | .wrout idx data => .wrout (BitVec.ofNat 8 idx) (BitVec.ofNat 8 data)
      | .rdout idx => .rdout (BitVec.ofNat 8 idx)
      | .wrin idx data => .wrin (BitVec.ofNat 8 idx) (BitVec.ofNat 8 data)
      | .rdin idx => .rdin (BitVec.ofNat 8 idx)
      | .exch => .exch
      | .setled r g b on off =>
        .setled (BitVec.ofNat 8 r) (BitVec.ofNat 8 g) (BitVec.ofNat 8 b) (BitVec.ofNat 8 on) (BitVec.ofNat 8 off)
      | .update => .exch)
  else none

/-- White space between the parts of a line (DEDUCED: log 20). -/
def isBlank (c : Char) : Bool := c == ' ' || c == '\t'

/-- Drop white space at both ends. -/
def trimBlanks (cs : List Char) : List Char := (((cs.dropWhile isBlank).reverse).dropWhile isBlank).reverse

/-- The value of a digit, decimal or hexadecimal, of either case (DEDUCED: log 20). -/
def digitValue (c : Char) : Option Nat :=
  let n := c.toNat
  if 48 ≤ n ∧ n ≤ 57 then some (n - 48)
  else if 97 ≤ n ∧ n ≤ 102 then some (n - 87)
  else if 65 ≤ n ∧ n ≤ 70 then some (n - 55)
  else none

/-- The digits of a number in a base, most significant first, after the value read so far. -/
def parseDigits (base : Nat) : Nat → List Char → Option Nat
  | acc, [] => some acc
  | acc, c :: rest =>
    match digitValue c with
    | some d => if d < base then parseDigits base (acc * base + d) rest else none
    | none => none

/-- A number: decimal, or hexadecimal after 0x. -/
def parseNumber (cs : List Char) : Option Nat :=
  match cs with
  | [] => none
  | '0' :: 'x' :: [] => none
  | '0' :: 'x' :: ds => parseDigits 16 0 ds
  | ds => parseDigits 10 0 ds

/-- Split at each comma: the part before the first one, and the others. -/
def splitCommas : List Char → List (List Char)
  | [] => [[]]
  | c :: rest =>
    if c == ',' then [] :: splitCommas rest
    else
      match splitCommas rest with
      | p :: ps => (c :: p) :: ps
      | [] => [[c]]

/-- The operands of a line. -/
def parseOperands (cs : List Char) : Option (List Nat) :=
  match trimBlanks cs with
  | [] => some []
  | ds => (splitCommas ds).mapM fun p => parseNumber (trimBlanks p)

/-- A line with its mnemonic and operands taken apart. -/
def asmLineOf (mnemonic : List Char) (ops : List Nat) : Option AsmLine :=
  if mnemonic = ['W', 'R', 'O', 'U', 'T'] then (match ops with | [i, d] => some (.wrout i d) | _ => none)
  else if mnemonic = ['R', 'D', 'O', 'U', 'T'] then (match ops with | [i] => some (.rdout i) | _ => none)
  else if mnemonic = ['W', 'R', 'I', 'N'] then (match ops with | [i, d] => some (.wrin i d) | _ => none)
  else if mnemonic = ['R', 'D', 'I', 'N'] then (match ops with | [i] => some (.rdin i) | _ => none)
  else if mnemonic = ['E', 'X', 'C', 'H'] then (match ops with | [] => some .exch | _ => none)
  else if mnemonic = ['S', 'E', 'T', 'L', 'E', 'D'] then
    (match ops with | [r, g, b, on, off] => some (.setled r g b on off) | _ => none)
  else if mnemonic = ['U', 'P', 'D', 'A', 'T', 'E'] then (match ops with | [] => some .update | _ => none)
  else none

/-- What a source line gives. -/
inductive Assembled where
  | blank
  | command (i : Instr)
  | rejected
deriving DecidableEq, Repr

/-- Assemble one line of text (spec/30_encoding.md R67). -/
def assembleText (line : List Char) : Assembled :=
  let body := trimBlanks (line.takeWhile fun c => c != ';')
  match body with
  | [] => .blank
  | _ =>
    let mnemonic := body.takeWhile fun c => !isBlank c
    match (parseOperands (body.dropWhile fun c => !isBlank c)).bind (asmLineOf mnemonic) with
    | some l => (match assemble l with | some i => .command i | none => .rejected)
    | none => .rejected

/-- Assemble a program into the finite list of command words the host issues in order (spec/10_state.md R25), or none where
a line is rejected. -/
def assembleProgram : List (List Char) → Option (List Cmd)
  | [] => some []
  | l :: rest =>
    match assembleText l with
    | .blank => assembleProgram rest
    | .command i => (assembleProgram rest).map fun ws => encode i :: ws
    | .rejected => none

/-- The host issuing a program to the block, after what is already on its way (spec/10_state.md R25). -/
def State.issueProgram (s : State) (ws : List Cmd) : State :=
  { s with issued := s.issued ++ ws.map fun w => ⟨.owner, w⟩ }

end Sys2Proof.Machine
end

