-- ==== Sys2Proof/Machine/FieldViews.lean ====
section
/-! DEFINITION. The field views: pseudo-instructions, each a sequence of commands the host issues one after the other
(spec/30_encoding.md R68, spec/40_codec.md R85 to R94). A sequence ends at the first command that faults (log 21). -/

namespace Sys2Proof.Machine

/-- What a get view gives. -/
inductive FieldValue where
  | bit (v : Bool)
  | byte (v : Byte)
  | pulse (v : BitVec 16)
  | reading (v : Int)
  | finger (v : Finger)
deriving DecidableEq, Repr

/-- RDS: RDOUT or RDIN (spec/30_encoding.md R68). -/
def readCmd (sp : Space) (a : BitVec 8) : Instr :=
  match sp with
  | .out => .rdout a
  | .inb => .rdin a

/-- WRS: WROUT or WRIN (spec/30_encoding.md R68). -/
def writeCmd (sp : Space) (a v : BitVec 8) : Instr :=
  match sp with
  | .out => .wrout a v
  | .inb => .wrin a v

/-- Issue commands in order; a command that faults is the last (spec/60_exceptions.md R152). -/
def execAll : List Instr → State → Host.Outcome State Fault Refusal
  | [], s => .next s
  | i :: rest, s =>
    match exec i s with
    | .next t => if t.fault.isSome then .next t else execAll rest t
    | .fault r => .fault r
    | .refused r => .refused r

/-- Issue RDS at each address in turn, collecting RESP after each; no bytes where one of the reads faults. -/
def readBytes (sp : Space) : List (BitVec 8) → State → Host.Outcome (State × Option (List Byte)) Fault Refusal
  | [], s => .next (s, some [])
  | a :: rest, s =>
    match exec (readCmd sp a) s with
    | .fault r => .fault r
    | .refused r => .refused r
    | .next t =>
      match t.fault, t.resp with
      | none, some b =>
        match readBytes sp rest t with
        | .fault r => .fault r
        | .refused r => .refused r
        | .next (u, bs) => .next (u, bs.map fun l => b :: l)
      | _, _ => .next (t, none)

/-- A get view: read the bytes, then combine them. -/
def getView (sp : Space) (addrs : List (BitVec 8)) (combine : List Byte → Option FieldValue) (s : State) :
    Host.Outcome (State × Option FieldValue) Fault Refusal :=
  match readBytes sp addrs s with
  | .fault r => .fault r
  | .refused r => .refused r
  | .next (t, bs) => .next (t, bs.bind combine)

/-- A sequence of commands whose only result is the state. -/
def noValue (o : Host.Outcome State Fault Refusal) : Host.Outcome (State × Option FieldValue) Fault Refusal :=
  match o with
  | .fault r => .fault r
  | .refused r => .refused r
  | .next t => .next (t, none)

/-- The commands of SETPW (spec/40_codec.md R87). The address o + 1 is taken in 8 bits; it wraps only for o = 255, where
the first command has already faulted (log 28). -/
def setPwCmds (order : PwOrder) (sp : Space) (o : BitVec 8) (v : BitVec 16) : List Instr :=
  [writeCmd sp o (pwBytes order v).1, writeCmd sp (o + 1) (pwBytes order v).2]

/-- SETBIT S, (b, n), v: a read of byte b, then a write of it with bit n set to v (spec/40_codec.md R85). -/
def execSetbit (sp : Space) (b : BitVec 8) (n : Fin 8) (v : Bool) (s : State) : Host.Outcome State Fault Refusal :=
  match readBytes sp [b] s with
  | .fault r => .fault r
  | .refused r => .refused r
  | .next (t, some [x]) => exec (writeCmd sp b (withBit x n v)) t
  | .next (t, _) => .next t

/-- Every pseudo-instruction of spec/30_encoding.md R68: the state after its commands, and the value of a get view (none
where one of its reads faulted). No other command comes between its commands (log 29). -/
def execPseudo (p : Pseudo) (s : State) : Host.Outcome (State × Option FieldValue) Fault Refusal :=
  match p with
  | .update => noValue (exec .exch s)
  | .setbit sp b n v => noValue (execSetbit sp b n v s)
  | .getbit sp b n => getView sp [b] (fun bs => match bs with | [x] => some (.bit (bitOf x n)) | _ => none) s
  | .setpw sp o v => noValue (execAll (setPwCmds s.cfg.pwOrder sp o v) s)
  | .getpw sp o =>
    getView sp [o, o + 1]
      (fun bs => match bs with | [x, y] => some (.pulse (pwValue s.cfg.pwOrder x y)) | _ => none) s
  | .getimu o =>
    getView .inb [o, o + 1] (fun bs => match bs with | [x, y] => some (.reading (imuValue x y)) | _ => none) s
  | .gettouch f =>
    getView .inb [f, f + 1, f + 2, f + 3]
      (fun bs => match bs with
        | [x, y, z, t] => some (.finger (fingerValue s.cfg.touchLayout x y z t))
        | _ => none) s

/-- A byte offset as the 8-bit operand of a command (log 16). -/
def addr (o : Nat) : BitVec 8 := BitVec.ofNat 8 o

/-- The get view of a field of FIELD_MAP (spec/40_codec.md R86, R88 to R90, R92). -/
def readField (f : FieldShape) (s : State) : Host.Outcome (State × Option FieldValue) Fault Refusal :=
  match f with
  | .overrideFlag b n => execPseudo (.getbit .out (addr b) (Fin.ofNat 8 n)) s
  | .flag sp b n => execPseudo (.getbit sp (addr b) (Fin.ofNat 8 n)) s
  | .byte8 sp o => getView sp [addr o] (fun bs => match bs with | [x] => some (.byte x) | _ => none) s
  | .pulseWidth sp o => execPseudo (.getpw sp (addr o)) s
  | .inertial o => execPseudo (.getimu (addr o)) s
  | .finger o => execPseudo (.gettouch (addr o)) s

/-- The set view of a field of FIELD_MAP, which checks no override flag and no other field (spec/40_codec.md R85, R87, R90,
R91). -/
def writeField (f : FieldShape) (v : FieldValue) (s : State) : Host.Outcome State Fault Refusal :=
  match f, v with
  | .overrideFlag b n, .bit x => execSetbit .out (addr b) (Fin.ofNat 8 n) x s
  | .flag sp b n, .bit x => execSetbit sp (addr b) (Fin.ofNat 8 n) x s
  | .byte8 sp o, .byte x => exec (writeCmd sp (addr o) x) s
  | .pulseWidth sp o, .pulse x => execAll (setPwCmds s.cfg.pwOrder sp (addr o) x) s
  | _, _ => .refused .noSetView

end Sys2Proof.Machine
end

