-- ==== Sys2Proof/Machine/Instances.lean ====
section
/-! DEFINITION. Several instances of the block, one for each select line, driven by one host thread
(spec/60_exceptions.md R164). -/

namespace Sys2Proof.Machine

/-- The instances that were built. -/
structure Fleet where
  blocks : List State
deriving DecidableEq, Repr

/-- Build every instance: refused where a configuration is, or where two instances have one SEL_ID. -/
def Fleet.build (args : List BuildArgs) : Host.Outcome Fleet Fault Refusal :=
  match args.mapM BuildArgs.config? with
  | none => .refused .configRefused
  | some cs =>
    if pairwiseBool (fun a b => a.selId != b.selId) cs then .next ⟨cs.map State.resetWith⟩
    else .refused .duplicateSelId

/-- The instance whose EXCH holds the host thread, if one does. -/
def Fleet.busy (f : Fleet) : Option Nat := f.blocks.findIdx? fun s => s.phase == .transacting

/-- One step of the fleet. The host thread turns to instance `k`, unless it is held in the EXCH of another; only the
instance that steps changes, so whole commands interleave (log 19). -/
def Fleet.step (f : Fleet) (k : Nat) : Host.Outcome Fleet Fault Refusal :=
  let j := f.busy.getD k
  match f.blocks[j]? with
  | none => .refused .noSuchInstance
  | some s =>
    match Sys2Proof.Machine.step s with
    | .next t => .next ⟨f.blocks.set j t⟩
    | .fault r => .fault r
    | .refused r => .refused r

end Sys2Proof.Machine
end

