-- ==== Sys2Proof/Safety.lean ====
section
/-! DEFINITION. The terms claims about the block are stated in: when a command can run, what one EXCH leaves, the protocol
of the bus log, the invariant of every reachable state, and which configurations are legal. -/

namespace Sys2Proof.Machine

/-- No FAULT and PHASE = Idle: the block can run a command (spec/60_exceptions.md R158). -/
def State.Ready (s : State) : Prop := s.fault = none ∧ s.phase = .idle

/-- Every byte of OUT has been written, so that EXCH can send them (spec/41_transfer.md R100). -/
def State.OutWritten (s : State) : Prop := ∀ a, a < outSize → s.out.read a ≠ none

/-- No command of a second issuer arrives now (spec/60_exceptions.md R156; whoever issued the EXCH in progress: log 32). -/
def State.NoOverlap (s : State) : Prop := ∀ a, s.issued.head? = some a → a.issuer = .owner

/-- The bit of the received bytes at a position of IN, before the decode. -/
def receivedBit (misos : List Byte) (q : InBit) : Bool := bitOf (misos.getD q.byte.val 0#8) q.bit

/-- The direction code the device sent in one transaction (spec/42_dpad_decoder.md R121). -/
def receivedCode (p : DpadPos) (misos : List Byte) : BitVec 4 :=
  directionCode (receivedBit misos p.up) (receivedBit misos p.right) (receivedBit misos p.down) (receivedBit misos p.left)

/-- A bit of IN after the EXCH that received `misos`: a decoded flag at the four positions of DPAD_POS, the received bit
elsewhere (spec/41_transfer.md R110). -/
def finalBit (p : DpadPos) (misos : List Byte) (q : InBit) : Bool :=
  let f := dpadTable (receivedCode p misos)
  if q = p.up then f.up
  else if q = p.right then f.right
  else if q = p.down then f.down
  else if q = p.left then f.left
  else receivedBit misos q

/-- The byte EXCH sends at beat i (spec/41_transfer.md R103). -/
def State.sentByte (s : State) (i : Nat) : Byte := if i < outSize then (s.out.read i).getD 0#8 else pad

/-- The events of the first `k` beats of a transaction that receives `misos` (spec/41_transfer.md R102). -/
def State.beatEvents (s : State) (misos : List Byte) (k : Nat) : List BusEvent :=
  (List.range k).map fun i => .beat i (s.sentByte i) (misos.getD i 0#8)

/-- The 98 events of a completed EXCH (spec/41_transfer.md R101 to R104). -/
def State.exchEvents (s : State) (misos : List Byte) : List BusEvent :=
  .assert s.cfg.selId :: s.beatEvents misos inSize ++ [.deassert s.cfg.selId]

/-- Where a bus log stands: between transactions, or before beat `i` of one. -/
inductive BusPoint where
  | between
  | before (i : Nat)
deriving DecidableEq, Repr

/-- One event of the bus protocol (spec/41_transfer.md R101 to R104), or none where the event may not come here. -/
def BusPoint.next (selId : Int) : BusPoint → BusEvent → Option BusPoint
  | .between, .assert k => if k = selId then some (.before 0) else none
  | .before i, .beat j _ _ => if j = i ∧ i < inSize then some (.before (i + 1)) else none
  | .before i, .deassert k => if k = selId ∧ i = inSize then some .between else none
  | _, _ => none

/-- Where a log stands after its events, or none where it breaks the protocol. -/
def busPoint (selId : Int) : BusPoint → List BusEvent → Option BusPoint
  | p, [] => some p
  | p, e :: rest => (p.next selId e).bind fun q => busPoint selId q rest

/-- The outcome is a next state whose FAULT holds code number `n`, word `w` and index `i`
(spec/60_exceptions.md R151). -/
def Records (o : Host.Outcome State Fault Refusal) (n : Nat) (w : Cmd) (i : Option Nat) : Prop :=
  ∃ (t : State) (r : FaultRecord), o = .next t ∧ t.fault = some r ∧ r.code.number = n ∧ r.word = w ∧ r.index = i

/-- Every beat from 39 on sends the sentinel (spec/41_transfer.md R112). -/
def Padded (log : List BusEvent) : Prop := ∀ i mosi miso, .beat i mosi miso ∈ log → outSize ≤ i → mosi = pad

/-- Where the log stands in this phase. -/
def State.busPoint (s : State) : BusPoint :=
  match s.phase with
  | .idle => .between
  | .transacting => .before s.beat

/-- What holds in every state a run reaches. -/
structure State.Inv (s : State) : Prop where
  /-- OUT is a buffer of 39 bytes (spec/10_state.md R23), in the model's canonical form (log 4). -/
  out_wf : s.out.wf outSize = true
  /-- IN is a buffer of 96 bytes (spec/10_state.md R23), in the model's canonical form (log 4). -/
  inb_wf : s.inb.wf inSize = true
  /-- The configuration passes the check (spec/70_reset_and_hazards.md R173). -/
  cfg_wf : s.cfg.wf = true
  /-- BEAT is 0 to 96 (spec/10_state.md R27). -/
  beat_le : s.beat ≤ inSize
  /-- PHASE = Transacting exactly while SEL is asserted (spec/10_state.md R26). -/
  phase_sel : s.phase = .transacting ↔ s.sel = .asserted
  /-- Between two steps a transaction in progress waits at one of its beats: the model's choice, since the last beat and the
  end of the transaction are one step (log 3). -/
  beat_lt : s.phase = .transacting → s.beat < inSize
  /-- A transaction in progress can send every byte it has to (spec/41_transfer.md R100, R114). -/
  out_written : s.phase = .transacting → s.OutWritten
  /-- The beats that completed have stored their bytes (spec/41_transfer.md R103). -/
  received : s.phase = .transacting → ∀ a, a < s.beat → s.inb.read a ≠ none
  /-- The bus log follows the protocol (spec/41_transfer.md R101 to R104). -/
  protocol : Machine.busPoint s.cfg.selId .between s.busLog = some s.busPoint

/-- A pair of numbers names a bit of IN. -/
def NatPos (p : Nat × Nat) : Prop := p.1 < inSize ∧ p.2 < 8

/-- What a builder's arguments must meet, in the words of spec/60_exceptions.md R163 (clause 8 holds by type; the ranges of
fields other than 2-byte fields and finger records, and of regions, are spec/92_eei_decisions.md D5, log 11; a FIELD_MAP that
gives only some regions and fields, and `leadFirst`, are log 10; `regionSizes` is spec/20_memory.md R52, log 31). -/
structure LegalArgs (a : BuildArgs) : Prop where
  leadLen : a.leadLen ≤ 95
  dpadInRange : NatPos a.dpadUp ∧ NatPos a.dpadRight ∧ NatPos a.dpadDown ∧ NatPos a.dpadLeft
  dpadDistinct : [a.dpadUp, a.dpadRight, a.dpadDown, a.dpadLeft].Nodup
  dpadInButtons : ∀ r ∈ a.fieldMap.regions, r.id = .buttons →
    ∀ p ∈ [a.dpadUp, a.dpadRight, a.dpadDown, a.dpadLeft], r.start ≤ p.1 ∧ p.1 < r.start + r.size
  ledInRange : ∀ o ∈ [a.ledR, a.ledG, a.ledB, a.ledOn, a.ledOff], o ≤ 38
  ledDistinct : [a.ledR, a.ledG, a.ledB, a.ledOn, a.ledOff].Nodup
  ledNoFlag : ∀ f ∈ a.fieldMap.fields, ∀ b n, f.shape = .overrideFlag b n →
    b ∉ [a.ledR, a.ledG, a.ledB, a.ledOn, a.ledOff]
  fieldsInRange : ∀ f ∈ a.fieldMap.fields, ∀ q ∈ f.shape.bits, q.1 < f.shape.space.size ∧ q.2 < 8
  regionsInRange : ∀ r ∈ a.fieldMap.regions, r.start + r.size ≤ inSize
  regionsRise : a.fieldMap.regions.Pairwise fun r q =>
    (r.id.rank < q.id.rank ∧ r.start < q.start) ∨ (q.id.rank < r.id.rank ∧ q.start < r.start)
  regionSizes : ∀ r ∈ a.fieldMap.regions, (r.id = .sticks → r.size = 4) ∧ (r.id = .triggers → r.size = 2) ∧
    (r.id = .inertial → r.size = 12) ∧ (r.id = .touchpad → 8 ≤ r.size)
  leadFirst : 0 < a.leadLen → ∀ r ∈ a.fieldMap.regions, 0 < r.start
  fieldsDisjoint : a.fieldMap.fields.Pairwise fun f g =>
    f.shape.space = g.shape.space → ∀ q ∈ f.shape.bits, q ∉ g.shape.bits

/-- At most one transaction is in progress (spec/60_exceptions.md R164). -/
def Fleet.OneTransaction (f : Fleet) : Prop :=
  ∀ (i j : Nat) (s t : State), f.blocks[i]? = some s → f.blocks[j]? = some t → s.phase = .transacting → t.phase = .transacting → i = j

end Sys2Proof.Machine
end

