-- ==== Sys2Proof/Certificates/Slice0/Obligations.lean ====
section
/-! DEFINITION. The statements of this row about the model, each from the rules of spec/ its docstring names. -/

open Sys2Proof Sys2Proof.Machine

/-! ## Encoding -/

/-- spec/30_encoding.md R69: each example word decodes to the command the rule writes beside it. -/
def Obligations.ExampleWordsDecode : Prop :=
  decode 0x0100000000000000#64 = .command (.wrout 0 0x00) ∧ decode 0x01002600000000FF#64 = .command (.wrout 38 0xFF) ∧
  decode 0x0200050000000000#64 = .command (.rdout 5) ∧ decode 0x03005F0000000012#64 = .command (.wrin 95 0x12) ∧
  decode 0x0400060000000000#64 = .command (.rdin 6) ∧ decode 0x0400600000000000#64 = .command (.rdin 96) ∧
  decode 0x0500000000000000#64 = .command .exch ∧
  decode 0x0600000A141E0102#64 = .command (.setled 10 20 30 1 2)

/-- spec/30_encoding.md R61 to R64: decoding the word of any command gives the command back, for every operand. -/
def Obligations.DecodeOfEncodeIsTheCommand : Prop := ∀ i : Instr, decode (encode i) = .command i

/-- spec/30_encoding.md R65: each command has one word, so the word recorded in FAULT is the word that arrived. -/
def Obligations.EncodeOfDecodeIsTheWord : Prop := ∀ (w : Cmd) (i : Instr), decode w = .command i → encode i = w

/-- spec/30_encoding.md R64: a word decodes to a command exactly when it matches that command's row, no two rows match one
word, and the op bytes are 0x01 to 0x06 in the order WROUT, RDOUT, WRIN, RDIN, EXCH, SETLED. -/
def Obligations.OpcodeTableRowsAreTheCommands : Prop :=
  (∀ (w : Cmd) (r : OpRow), r ∈ opcodeTable →
    (r.matches w = true ↔ ∃ i, decode w = .command i ∧ i.mnemonic = r.mnemonic)) ∧
  (∀ (w : Cmd) (r q : OpRow), r ∈ opcodeTable → q ∈ opcodeTable → r.matches w = true → q.matches w = true → r = q) ∧
  (∀ (w : Cmd) (i : Instr), decode w = .command i →
    (i.mnemonic, w.op.toNat) ∈ [("WROUT", 1), ("RDOUT", 2), ("WRIN", 3), ("RDIN", 4), ("EXCH", 5), ("SETLED", 6)])

/-- spec/30_encoding.md R65: every word matches exactly one row of the table, or matches none and is illegal; an illegal word
that arrives (log 1) raises IllegalCommand. -/
def Obligations.EveryWordMatchesOneRowOrIsIllegal : Prop :=
  ∀ w : Cmd,
    (∃ r ∈ opcodeTable, r.matches w = true ∧ (∀ q ∈ opcodeTable, q.matches w = true → q = r) ∧
      ∃ i, decode w = .command i) ∨
    ((∀ r ∈ opcodeTable, r.matches w = false) ∧ (∃ why, decode w = .illegal why) ∧
      ∀ s : State, s.fault = none → step (s.issueNext w) = .next (s.raise .illegalCommand w none))

/-- spec/30_encoding.md R66: a reserved op, or a 1 in a bit the format of its op marks 0 (R61), makes a word illegal; so is the
all-zero word; and every illegal word that arrives (log 1) raises IllegalCommand(w) and does nothing else. -/
def Obligations.ReservedWordsAreIllegal : Prop :=
  (∀ w : Cmd, (w.op = 0 ∨ 0x07 ≤ w.op.toNat) → decode w = .illegal (.reservedOp w.op)) ∧
  (∀ (w : Cmd) (n : Nat), w.getLsbD n = true →
    ((w.op = 0x05 ∧ n < 56) ∨
      ((w.op = 0x02 ∨ w.op = 0x04) ∧ ((48 ≤ n ∧ n < 56) ∨ n < 40)) ∨
      ((w.op = 0x01 ∨ w.op = 0x03) ∧ ((48 ≤ n ∧ n < 56) ∨ (8 ≤ n ∧ n < 40))) ∨
      (w.op = 0x06 ∧ 40 ≤ n ∧ n < 56)) →
    decode w = .illegal (.reservedBits w.op)) ∧
  (∃ why, decode 0#64 = .illegal why) ∧
  (∀ (w : Cmd) (why : Illegal) (s : State), decode w = .illegal why → s.fault = none →
    step (s.issueNext w) = .next (s.raise .illegalCommand w none))

/-- spec/30_encoding.md R67, R68: for every mnemonic, an operand of 256 or more is rejected, operands that fit their 8-bit
fields give that command, whatever the size of the space, and EXCH and UPDATE give EXCH. -/
def Obligations.AssemblerRejectsWideOperands : Prop :=
  (∀ idx data : Nat, 256 ≤ idx ∨ 256 ≤ data →
    assemble (.wrout idx data) = none ∧ assemble (.wrin idx data) = none) ∧
  (∀ idx : Nat, 256 ≤ idx → assemble (.rdout idx) = none ∧ assemble (.rdin idx) = none) ∧
  (∀ r g b on off : Nat, 256 ≤ r ∨ 256 ≤ g ∨ 256 ≤ b ∨ 256 ≤ on ∨ 256 ≤ off →
    assemble (.setled r g b on off) = none) ∧
  (∀ idx data : BitVec 8,
    assemble (.wrout idx.toNat data.toNat) = some (.wrout idx data) ∧
    assemble (.wrin idx.toNat data.toNat) = some (.wrin idx data) ∧
    assemble (.rdout idx.toNat) = some (.rdout idx) ∧ assemble (.rdin idx.toNat) = some (.rdin idx)) ∧
  (∀ r g b on off : BitVec 8,
    assemble (.setled r.toNat g.toNat b.toNat on.toNat off.toNat) = some (.setled r g b on off)) ∧
  assemble .exch = some .exch ∧ assemble .update = some .exch

/-! ## Steps -/

/-- spec/20_memory.md R54, spec/10_state.md R25: when the arriving word decodes to a command, the step is that command's
meaning on the state with the word taken from the queue. A word arrives when the block is Idle (a second
issuer's too: log 18) or its issuer is not the owner, who is held whoever issued the EXCH (log 1, log 32). -/
def Obligations.StepRunsTheArrivingCommand : Prop :=
  ∀ (s : State) (a : Arrival) (rest : List Arrival) (i : Instr),
    s.fault = none → s.issued = a :: rest → (s.phase = .idle ∨ a.issuer = .other) → decode a.word = .command i →
    step s = exec i (s.withIssued rest)

/-- spec/41_transfer.md R107, R108: the owner is blocked while a transaction is in progress; its next word stays in the queue
and the engine goes on (log 1, log 3). That it is so whoever issued the EXCH is the model's choice (log 32). -/
def Obligations.OwnerIsBlockedDuringATransaction : Prop :=
  ∀ s : State, s.fault = none → s.phase = .transacting → s.NoOverlap →
    ∃ t, step s = .next t ∧ t = s.engine ∧ t.issued = s.issued

/-- spec/70_reset_and_hazards.md R171: an Idle block with no command waits, its step answering the same state (log 17);
so does the block after reset. -/
def Obligations.IdleBlockWaitsForACommand : Prop :=
  (∀ s : State, s.Ready → s.issued = [] → step s = .next s) ∧ step State.reset = .next State.reset

/-- spec/60_exceptions.md R152: a command that faults writes nothing but FAULT, with its own word, and so does an illegal
word; from then on the block takes no step (the model's outcome for that is .fault, log 5; arrival is log 1); and a block
that was just built has no fault. -/
def Obligations.FaultIsPreciseAndSticky : Prop :=
  (∀ (i : Instr) (s t : State), exec i s = .next t → t.fault ≠ none →
    ∃ code index, t.fault = some ⟨code, encode i, index⟩ ∧ t = s.raise code (encode i) index) ∧
  (∀ (w : Cmd) (why : Illegal) (s : State), decode w = .illegal why → s.fault = none →
    step (s.issueNext w) = .next (s.raise .illegalCommand w none)) ∧
  (∀ (s : State) (r : FaultRecord), s.fault = some r →
    step s = .fault (.halted r) ∧ ∀ i : Instr, exec i s = .fault (.halted r)) ∧
  (∀ (a : BuildArgs) (s : State), State.build a = .next s → s.fault = none)

/-- spec/60_exceptions.md R156: any command that arrives during a transaction raises Overlap(w) and changes nothing else; the
block then takes no further step (log 5). -/
def Obligations.CommandDuringTransactionRaisesOverlap : Prop :=
  ∀ (i : Instr) (s : State), s.fault = none → s.phase = .transacting →
    exec i s = .next (s.raise .overlap (encode i) none) ∧
    step (s.raise .overlap (encode i) none) = .fault (.halted ⟨.overlap, encode i, none⟩)

/-- spec/60_exceptions.md R158: the order of the checks: FAULT set (no step, log 5), IllegalCommand, Overlap, IndexOutOfRange
(whatever the byte holds), UnwrittenRead, which for EXCH reports the lowest ⊥ index. Arrival is log 1. -/
def Obligations.FaultPriorityOrder : Prop :=
  (∀ (s : State) (w : Cmd) (r : FaultRecord), s.fault = some r → step (s.issueNext w) = .fault (.halted r)) ∧
  (∀ (s : State) (w : Cmd) (why : Illegal), s.fault = none → decode w = .illegal why →
    step (s.issueNext w) = .next (s.raise .illegalCommand w none)) ∧
  (∀ (s : State) (i : Instr), s.fault = none → s.phase = .transacting →
    exec i s = .next (s.raise .overlap (encode i) none)) ∧
  (∀ (s : State) (idx : BitVec 8), s.Ready →
    (39 ≤ idx.toNat → exec (.rdout idx) s = .next (s.raise .indexOutOfRange (encode (.rdout idx)) (some idx.toNat))) ∧
    (96 ≤ idx.toNat → exec (.rdin idx) s = .next (s.raise .indexOutOfRange (encode (.rdin idx)) (some idx.toNat)))) ∧
  (∀ (s : State) (i : Nat), s.Ready → i < outSize → s.out.read i = none → (∀ j, j < i → s.out.read j ≠ none) →
    exec .exch s = .next (s.raise .unwrittenRead (encode .exch) (some i)))

/-- spec/60_exceptions.md R151: the number, word and index that each cause records: 1 for an illegal word, 2 for an index
outside its space, 3 for a byte that holds ⊥, 4 for a command during a transaction. That 1 and 4 record no index is log 27;
arrival is log 1. -/
def Obligations.FaultRecordsFollowTheTable : Prop :=
  (∀ (w : Cmd) (why : Illegal) (s : State), decode w = .illegal why → s.fault = none →
    Records (step (s.issueNext w)) 1 w none) ∧
  (∀ (sp : Space) (idx v : BitVec 8) (s : State), s.Ready → sp.size ≤ idx.toNat →
    Records (exec (readCmd sp idx) s) 2 (encode (readCmd sp idx)) (some idx.toNat) ∧
    Records (exec (writeCmd sp idx v) s) 2 (encode (writeCmd sp idx v)) (some idx.toNat)) ∧
  (∀ (sp : Space) (idx : BitVec 8) (s : State), s.Ready → idx.toNat < sp.size → (s.mem sp).read idx.toNat = none →
    Records (exec (readCmd sp idx) s) 3 (encode (readCmd sp idx)) (some idx.toNat)) ∧
  (∀ (s : State) (i : Nat), s.Ready → i < outSize → s.out.read i = none → (∀ j, j < i → s.out.read j ≠ none) →
    Records (exec .exch s) 3 (encode .exch) (some i)) ∧
  (∀ (i : Instr) (s : State), s.fault = none → s.phase = .transacting → Records (exec i s) 4 (encode i) none)

/-- spec/60_exceptions.md R151, R166: a command records a fault for no other cause: number 4 in a transaction; number 2 for a byte
command whose index is outside its space; number 3 for a read of a ⊥ byte, or for EXCH at a ⊥ byte of OUT with none below. -/
def Obligations.CommandsFaultOnlyForTheirCauses : Prop :=
  ∀ (i : Instr) (s t : State) (r : FaultRecord), exec i s = .next t → t.fault = some r →
    (r.code.number = 4 ∧ s.phase = .transacting) ∨
    (r.code.number = 2 ∧ s.phase = .idle ∧
      ∃ (sp : Space) (idx : BitVec 8), sp.size ≤ idx.toNat ∧ (i = readCmd sp idx ∨ ∃ v, i = writeCmd sp idx v)) ∨
    (r.code.number = 3 ∧ s.phase = .idle ∧
      ∃ (sp : Space) (idx : BitVec 8), idx.toNat < sp.size ∧ (s.mem sp).read idx.toNat = none ∧ i = readCmd sp idx) ∨
    (r.code.number = 3 ∧ s.phase = .idle ∧ i = .exch ∧
      ∃ k, r.index = some k ∧ k < outSize ∧ s.out.read k = none ∧ ∀ j, j < k → s.out.read j ≠ none)

/-! ## Byte commands -/

/-- spec/40_codec.md R80: WROUT stores its byte, and nothing else changes. -/
def Obligations.WroutStoresItsByte : Prop :=
  ∀ (idx data : BitVec 8) (s : State), s.Ready → idx.toNat < outSize →
    ∃ t, exec (.wrout idx data) s = .next t ∧ t = { s with out := t.out } ∧ t.out.read idx.toNat = some data ∧
      ∀ a, a ≠ idx.toNat → t.out.read a = s.out.read a

/-- spec/40_codec.md R82: WRIN stores its byte raw, and nothing else changes. -/
def Obligations.WrinStoresItsByte : Prop :=
  ∀ (idx data : BitVec 8) (s : State), s.Ready → idx.toNat < inSize →
    ∃ t, exec (.wrin idx data) s = .next t ∧ t = { s with inb := t.inb } ∧ t.inb.read idx.toNat = some data ∧
      ∀ a, a ≠ idx.toNat → t.inb.read a = s.inb.read a

/-- spec/40_codec.md R81: RDOUT puts a written byte into RESP, and only RESP changes. -/
def Obligations.RdoutReadsItsByte : Prop :=
  ∀ (idx : BitVec 8) (v : Byte) (s : State), s.Ready → idx.toNat < outSize → s.out.read idx.toNat = some v →
    exec (.rdout idx) s = .next { s with resp := some v }

/-- spec/40_codec.md R83: RDIN puts a written byte into RESP, and only RESP changes. -/
def Obligations.RdinReadsItsByte : Prop :=
  ∀ (idx : BitVec 8) (v : Byte) (s : State), s.Ready → idx.toNat < inSize → s.inb.read idx.toNat = some v →
    exec (.rdin idx) s = .next { s with resp := some v }

/-- spec/60_exceptions.md R154: a byte command whose index is outside its space raises IndexOutOfRange(w, idx). -/
def Obligations.IndexOutsideItsSpaceFaults : Prop :=
  ∀ (idx data : BitVec 8) (s : State), s.Ready →
    (39 ≤ idx.toNat →
      exec (.wrout idx data) s =
        .next (s.raise .indexOutOfRange (encode (.wrout idx data)) (some idx.toNat)) ∧
      exec (.rdout idx) s = .next (s.raise .indexOutOfRange (encode (.rdout idx)) (some idx.toNat))) ∧
    (96 ≤ idx.toNat →
      exec (.wrin idx data) s =
        .next (s.raise .indexOutOfRange (encode (.wrin idx data)) (some idx.toNat)) ∧
      exec (.rdin idx) s = .next (s.raise .indexOutOfRange (encode (.rdin idx)) (some idx.toNat)))

/-- spec/60_exceptions.md R155: a command that must use the value of a byte that holds ⊥ raises UnwrittenRead(w, i): the two
reads with their index, EXCH with the lowest ⊥ index of OUT. -/
def Obligations.UnwrittenByteFaults : Prop :=
  ∀ s : State, s.Ready →
    (∀ idx : BitVec 8, idx.toNat < outSize → s.out.read idx.toNat = none →
      exec (.rdout idx) s = .next (s.raise .unwrittenRead (encode (.rdout idx)) (some idx.toNat))) ∧
    (∀ idx : BitVec 8, idx.toNat < inSize → s.inb.read idx.toNat = none →
      exec (.rdin idx) s = .next (s.raise .unwrittenRead (encode (.rdin idx)) (some idx.toNat))) ∧
    (∀ i, i < outSize → s.out.read i = none → (∀ j, j < i → s.out.read j ≠ none) →
      exec .exch s = .next (s.raise .unwrittenRead (encode .exch) (some i)))

/-- spec/40_codec.md R84: the byte commands touch only the state their pseudocode names (and FAULT, where they raise): a write
changes at most the byte idx of its buffer, and a command that raises changes FAULT alone. -/
def Obligations.ByteCommandsTouchNothingElse : Prop :=
  ∀ (idx data : BitVec 8) (s t : State),
    (exec (.wrout idx data) s = .next t →
      t = { s with out := t.out, fault := t.fault } ∧ (∀ a, a ≠ idx.toNat → t.out.read a = s.out.read a) ∧
      (t.fault ≠ none → t.out = s.out)) ∧
    (exec (.wrin idx data) s = .next t →
      t = { s with inb := t.inb, fault := t.fault } ∧ (∀ a, a ≠ idx.toNat → t.inb.read a = s.inb.read a) ∧
      (t.fault ≠ none → t.inb = s.inb)) ∧
    (exec (.rdout idx) s = .next t ∨ exec (.rdin idx) s = .next t →
      t = { s with resp := t.resp, fault := t.fault } ∧ (t.fault ≠ none → t.resp = s.resp))

/-- spec/40_codec.md R93 (its first law), spec/20_memory.md R51: a byte written to either space reads back. -/
def Obligations.WriteThenReadReturnsTheByte : Prop :=
  ∀ (sp : Space) (a v : BitVec 8) (s : State), s.Ready → a.toNat < sp.size →
    ∃ t u, exec (writeCmd sp a v) s = .next t ∧ exec (readCmd sp a) t = .next u ∧ u.resp = some v ∧
      u.mem sp = t.mem sp

/-! ## SETLED -/

/-- spec/43_setled.md R140: SETLED writes its five bytes, and nothing else changes. -/
def Obligations.SetledWritesItsFiveBytes : Prop :=
  ∀ (r g b on off : BitVec 8) (s : State), s.Ready → s.cfg.wf = true →
    ∃ t, exec (.setled r g b on off) s = .next t ∧ t = { s with out := t.out } ∧
      t.out.read s.cfg.ledOff.r.val = some r ∧ t.out.read s.cfg.ledOff.g.val = some g ∧
      t.out.read s.cfg.ledOff.b.val = some b ∧ t.out.read s.cfg.ledOff.on.val = some on ∧
      t.out.read s.cfg.ledOff.off.val = some off ∧
      ∀ a, a ∉ s.cfg.ledOff.indices.map Fin.val → t.out.read a = s.out.read a

/-- spec/43_setled.md R141: SETLED leaves the byte of every override flag of FIELD_MAP as it was. -/
def Obligations.SetledLeavesOverrideFlags : Prop :=
  ∀ (r g b on off : BitVec 8) (s : State), s.Ready → s.cfg.wf = true →
    ∃ t, exec (.setled r g b on off) s = .next t ∧
      ∀ f ∈ s.cfg.fieldMap.fields, ∀ byte bit, f.shape = .overrideFlag byte bit → t.out.read byte = s.out.read byte

/-! ## EXCH -/

/-- spec/41_transfer.md R100 to R104, R110, R111: when every OUT byte is written and the bus completes every beat, EXCH
completes. BUSLOG grows by the 98 events; IN holds the received bytes but for the decoded d-pad bits; OUT, RESP and the rest
are unchanged. The bus's answers are State.bus (log 2) and BEAT stays 96 (log 13). -/
def Obligations.ExchCompletesWhenTheBusAnswers : Prop :=
  ∀ (s : State) (misos : List Byte) (rest : List BusReply), s.Ready → s.cfg.wf = true → s.OutWritten →
    misos.length = inSize → s.bus = misos.map .byte ++ rest →
    ∃ t, exec .exch s = .next t ∧
      t = { s with
        inb := t.inb, beat := inSize, sel := .deasserted, bus := rest, busLog := s.busLog ++ s.exchEvents misos } ∧
      (s.exchEvents misos).length = 98 ∧
      (∀ q : InBit, t.inb.readBit q = some (finalBit s.cfg.dpadPos misos q)) ∧
      ∀ a, inSize ≤ a → t.inb.read a = s.inb.read a

/-- spec/41_transfer.md R107, spec/60_exceptions.md R157: where the bus stops answering at beat k, EXCH stays at that beat, with
PHASE = Transacting and SEL asserted, the first k bytes received and no fault (log 2, log 3). -/
def Obligations.ExchWaitsAtABeatTheBusHolds : Prop :=
  ∀ (s : State) (misos : List Byte) (rest : List BusReply), s.Ready → s.OutWritten → misos.length < inSize →
    (s.bus = misos.map .byte ∧ rest = [] ∨ s.bus = misos.map .byte ++ .stall :: rest) →
    ∃ t, exec .exch s = .next t ∧
      t = { s with
        inb := t.inb, beat := misos.length, phase := .transacting, sel := .asserted, bus := rest,
        busLog := s.busLog ++ .assert s.cfg.selId :: s.beatEvents misos misos.length } ∧
      (∀ i, i < misos.length → t.inb.read i = some (misos.getD i 0#8)) ∧
      ∀ a, misos.length ≤ a → t.inb.read a = s.inb.read a

/-- spec/60_exceptions.md R157: BusWait lasts for ever on a bus that never answers: the step leaves the state as it is (log 2,
log 17). -/
def Obligations.WaitingOnASilentBusIsStuck : Prop :=
  ∀ s : State, s.Inv → s.fault = none → s.phase = .transacting → s.NoOverlap → s.bus = [] → step s = .next s

/-- spec/41_transfer.md R107, spec/60_exceptions.md R157: a stall only delays: taking up the transaction again gives what an
undelayed EXCH gives (log 2, log 3). -/
def Obligations.AStallOnlyDelaysAnExchange : Prop :=
  ∀ (s t : State) (before : List Byte) (after : List BusReply), s.Ready → s.OutWritten → before.length < inSize →
    exec .exch (s.withBus (before.map .byte ++ .stall :: after)) = .next t →
    exec .exch (s.withBus (before.map .byte ++ after)) = .next t.engine

/-- spec/70_reset_and_hazards.md R189: if the bus completes every beat, the EXCH completes. Here: if the bus's answers hold a
byte for each beat that is left, some number of steps ends the transaction without a fault (log 2,
log 3). That BEAT stands at 96 (spec/10_state.md R27) once the block is Idle again is log 13. -/
def Obligations.FairBusCompletesTheTransaction : Prop :=
  ∀ s : State, s.Inv → s.fault = none → s.phase = .transacting → s.NoOverlap →
    inSize - s.beat ≤ (s.bus.filter fun r => r != .stall).length →
    ∃ k t, Host.Core.run core k s = .next t ∧ t.phase = .idle ∧ t.beat = inSize ∧ t.fault = none

/-- spec/41_transfer.md R110: after a completed EXCH, IN depends only on the received bytes: not on OUT, not on IN before it,
not on RESP or the log (log 2). -/
def Obligations.ReceivedBytesAloneDecideIn : Prop :=
  ∀ (s₁ s₂ t₁ t₂ : State) (misos : List Byte) (rest₁ rest₂ : List BusReply),
    s₁.Ready → s₂.Ready → s₁.OutWritten → s₂.OutWritten → s₁.inb.wf inSize = true → s₂.inb.wf inSize = true →
    s₁.cfg.dpadPos = s₂.cfg.dpadPos → misos.length = inSize → s₁.bus = misos.map .byte ++ rest₁ → s₂.bus = misos.map .byte ++ rest₂ →
    exec .exch s₁ = .next t₁ → exec .exch s₂ = .next t₂ → t₁.inb = t₂.inb

/-- spec/41_transfer.md R111: no EXCH writes OUT or RESP, at its start or when it goes on after a wait (log 3). -/
def Obligations.ExchLeavesOutAndResp : Prop :=
  (∀ s t : State, exec .exch s = .next t → t.out = s.out ∧ t.resp = s.resp) ∧
  (∀ s : State, s.engine.out = s.out ∧ s.engine.resp = s.resp)

/-- spec/41_transfer.md R112: every step keeps it that each beat from 39 on in the log sends the sentinel, whatever OUT holds;
and the log after reset has it. -/
def Obligations.PaddingIsAlwaysTheSentinel : Prop :=
  (∀ s t : State, Padded s.busLog → step s = .next t → Padded t.busLog) ∧
  (∀ c : Config, Padded (State.resetWith c).busLog)

/-! ## The d-pad decoder -/

/-- spec/42_dpad_decoder.md R123: the table, row by row (UP, RIGHT, DOWN, LEFT, output code), and the four sets. -/
def Obligations.DpadDecodeTable : Prop :=
  ((List.range 16).map fun n =>
      let f := dpadTable (BitVec.ofNat 4 n)
      ([f.up, f.right, f.down, f.left].map Bool.toNat, f.code.toNat)) =
    [([1, 0, 0, 0], 1), ([1, 1, 0, 0], 3), ([0, 1, 0, 0], 2), ([0, 1, 1, 0], 6),
     ([0, 0, 1, 0], 4), ([0, 0, 1, 1], 12), ([0, 0, 0, 1], 8), ([1, 0, 0, 1], 9),
     ([0, 0, 0, 0], 0), ([0, 0, 0, 0], 0), ([0, 0, 0, 0], 0), ([0, 0, 0, 0], 0),
     ([0, 0, 0, 0], 0), ([0, 0, 0, 0], 0), ([0, 0, 0, 0], 0), ([0, 0, 0, 0], 0)] ∧
  ∀ c : BitVec 4,
    ((dpadTable c).up = true ↔ c.toNat ∈ [0, 1, 7]) ∧ ((dpadTable c).right = true ↔ c.toNat ∈ [1, 2, 3]) ∧
    ((dpadTable c).down = true ↔ c.toNat ∈ [3, 4, 5]) ∧ ((dpadTable c).left = true ↔ c.toNat ∈ [5, 6, 7])

/-- spec/42_dpad_decoder.md R129: the Boolean equations equal the table on all 16 codes. -/
def Obligations.DpadEquationsEqualTheTable : Prop :=
  ∀ c : BitVec 4,
    dpadTable c =
      { up := !c.getLsbD 3 && ((!c.getLsbD 2 && !c.getLsbD 1) || (c.getLsbD 2 && c.getLsbD 1 && c.getLsbD 0))
        right := !c.getLsbD 3 && !c.getLsbD 2 && (c.getLsbD 1 || c.getLsbD 0)
        down := !c.getLsbD 3 && ((!c.getLsbD 2 && c.getLsbD 1 && c.getLsbD 0) || (c.getLsbD 2 && !c.getLsbD 1))
        left := !c.getLsbD 3 && c.getLsbD 2 && (c.getLsbD 1 || c.getLsbD 0) }

/-- spec/42_dpad_decoder.md R128: at most two flags are 1, two are adjacent in clockwise order, opposite flags are never 1
together, all are 0 exactly for codes 8 to 15, and UP alone exactly for code 0. -/
def Obligations.DecodedFlagProperties : Prop :=
  ∀ c : BitVec 4,
    let f := dpadTable c
    let n := f.up.toNat + f.right.toNat + f.down.toNat + f.left.toNat
    n ≤ 2 ∧
    (n = 2 → (f.up && f.right) || (f.right && f.down) || (f.down && f.left) || (f.left && f.up)) ∧
    ¬(f.up = true ∧ f.down = true) ∧ ¬(f.right = true ∧ f.left = true) ∧
    (n = 0 ↔ 8 ≤ c.toNat) ∧ (f = ⟨true, false, false, false⟩ ↔ c = 0)

/-- spec/42_dpad_decoder.md R124: DpadDecode takes the code from the four bits as they were before, writes the four decoded
flags, and leaves every other bit of IN, and every ⊥ byte, as it was. -/
def Obligations.DpadDecodeRewritesFourBits : Prop :=
  ∀ (m : Memory) (p : DpadPos) (u r d l : Bool), p.positions.Nodup →
    m.readBit p.up = some u → m.readBit p.right = some r → m.readBit p.down = some d → m.readBit p.left = some l →
    let f := dpadTable (directionCode u r d l)
    (m.dpadDecode p).readBit p.up = some f.up ∧ (m.dpadDecode p).readBit p.right = some f.right ∧
    (m.dpadDecode p).readBit p.down = some f.down ∧ (m.dpadDecode p).readBit p.left = some f.left ∧
    (∀ q : InBit, q ∉ p.positions → (m.dpadDecode p).readBit q = m.readBit q) ∧
    ∀ a, a ∉ p.positions.map (fun q => q.byte.val) → (m.dpadDecode p).read a = m.read a

/-- spec/42_dpad_decoder.md R127: decoding an output code again gives another result for every code but 2 and 4, which are the
codes whose output code is their own. -/
def Obligations.DecodingTwiceDiffers : Prop :=
  ∀ c : BitVec 4,
    (dpadTable (dpadTable c).code = dpadTable c ↔ c = 2 ∨ c = 4) ∧ ((dpadTable c).code = c ↔ c = 2 ∨ c = 4)

/-- spec/70_reset_and_hazards.md R185: the decoded flags give back codes 0 to 7 exactly, and codes 8 to 15 as "no direction". -/
def Obligations.CodeRebuiltFromDecodedFlags : Prop :=
  ∀ c : BitVec 4, (dpadTable c).rebuild = if c.toNat < 8 then some c else none

/-! ## Field views -/

/-- spec/40_codec.md R85, R86: SETBIT changes bit n of byte b only, GETBIT then gives v, and RESP holds the byte read first. -/
def Obligations.SetbitChangesOneBit : Prop :=
  ∀ (sp : Space) (b : BitVec 8) (n : Fin 8) (v : Bool) (x : Byte) (s : State), s.Ready → b.toNat < sp.size →
    (s.mem sp).read b.toNat = some x →
    ∃ t y u, execPseudo (.setbit sp b n v) s = .next (t, none) ∧ t.Ready ∧ t.resp = some x ∧
      (t.mem sp).read b.toNat = some y ∧ (∀ k : Fin 8, bitOf y k = if k = n then v else bitOf x k) ∧
      (∀ a, a ≠ b.toNat → (t.mem sp).read a = (s.mem sp).read a) ∧
      execPseudo (.getbit sp b n) t = .next (u, some (.bit v))

/-- spec/40_codec.md R85 (corner case): SETBIT on a ⊥ byte faults UnwrittenRead at its read and writes nothing (log 21). -/
def Obligations.SetbitOnAnUnwrittenByteFaults : Prop :=
  ∀ (sp : Space) (b : BitVec 8) (n : Fin 8) (v : Bool) (s : State), s.Ready → b.toNat < sp.size →
    (s.mem sp).read b.toNat = none →
    execPseudo (.setbit sp b n v) s =
      .next (s.raise .unwrittenRead (encode (readCmd sp b)) (some b.toNat), none)

/-- spec/40_codec.md R87, R88, R93, R94: SETPW stores both bytes in PW_ORDER, changes no other byte, and GETPW then gives v. -/
def Obligations.SetpwThenGetpwReturnsTheValue : Prop :=
  ∀ (sp : Space) (o : BitVec 8) (v : BitVec 16) (s : State), s.Ready → o.toNat + 1 < sp.size →
    ∃ t u lo hi, execPseudo (.setpw sp o v) s = .next (t, none) ∧ t.Ready ∧ t.resp = s.resp ∧
      lo.toNat = v.toNat % 256 ∧ hi.toNat = v.toNat / 256 ∧
      (s.cfg.pwOrder = .little →
        (t.mem sp).read o.toNat = some lo ∧ (t.mem sp).read (o.toNat + 1) = some hi) ∧
      (s.cfg.pwOrder = .big →
        (t.mem sp).read o.toNat = some hi ∧ (t.mem sp).read (o.toNat + 1) = some lo) ∧
      (∀ a, a ≠ o.toNat → a ≠ o.toNat + 1 → (t.mem sp).read a = (s.mem sp).read a) ∧
      execPseudo (.getpw sp o) t = .next (u, some (.pulse v))

/-- spec/40_codec.md R93: for every field that has a set view and lies in its space, a set that raised no fault reads back
through the get view, in either byte order. -/
def Obligations.FieldSetThenGetReturnsTheValue : Prop :=
  ∀ (f : FieldShape) (v : FieldValue) (s t : State), s.Ready → f.inRange = true → writeField f v s = .next t →
    t.fault = none → ∃ u, readField f t = .next (u, some v)

/-- spec/40_codec.md R89, spec/20_memory.md R45: GETIMU combines its two bytes big-endian and signed. -/
def Obligations.GetimuIsBigEndianAndSigned : Prop :=
  ∀ (o : BitVec 8) (x y : Byte) (s : State), s.Ready → o.toNat + 1 < inSize → s.inb.read o.toNat = some x →
    s.inb.read (o.toNat + 1) = some y →
    ∃ t, execPseudo (.getimu o) s =
      .next (t, some (.reading (((x.toNat * 256 + y.toNat : Nat) : Int) - if 128 ≤ x.toNat then 65536 else 0))) ∧
      t = { s with resp := some y }

/-- spec/40_codec.md R92: GETTOUCH splits its four bytes by TOUCH_LAYOUT. -/
def Obligations.GettouchSplitsByLayout : Prop :=
  ∀ (f : BitVec 8) (b0 b1 b2 b3 : Byte) (s : State), s.Ready → f.toNat + 3 < inSize → s.inb.read f.toNat = some b0 →
    s.inb.read (f.toNat + 1) = some b1 → s.inb.read (f.toNat + 2) = some b2 → s.inb.read (f.toNat + 3) = some b3 →
    ∃ g : Finger, execPseudo (.gettouch f) s = .next ({ s with resp := some b3 }, some (.finger g)) ∧
      (s.cfg.touchLayout = .lsbAlloc →
        g.id.toNat = b0.toNat % 128 ∧ g.valid.toNat = b0.toNat / 128 ∧
        g.x.toNat = b2.toNat % 16 * 256 + b1.toNat ∧ g.y.toNat = b3.toNat * 16 + b2.toNat / 16) ∧
      (s.cfg.touchLayout = .msbAlloc →
        g.id.toNat = b0.toNat / 2 ∧ g.valid.toNat = b0.toNat % 2 ∧
        g.x.toNat = b1.toNat * 16 + b2.toNat / 16 ∧ g.y.toNat = b2.toNat % 16 * 256 + b3.toNat)

/-! ## The whole machine -/

/-- spec/10_state.md R21, spec/70_reset_and_hazards.md R174: OUT is written only by WROUT and SETLED, and IN only by WRIN and
EXCH; the engine going on writes IN, never OUT. -/
def Obligations.OnlyNamedCommandsWriteTheBuffers : Prop :=
  (∀ (i : Instr) (s t : State), exec i s = .next t →
    (t.out ≠ s.out → i.mnemonic = "WROUT" ∨ i.mnemonic = "SETLED") ∧
    (t.inb ≠ s.inb → i.mnemonic = "WRIN" ∨ i.mnemonic = "EXCH")) ∧
  ∀ s t : State, s.issued = [] → step s = .next t → t.out = s.out ∧ (s.phase = .idle → t.inb = s.inb)

/-- spec/10_state.md R24: only RDOUT and RDIN change RESP. -/
def Obligations.OnlyReadsChangeResp : Prop :=
  (∀ (i : Instr) (s t : State), exec i s = .next t → t.resp ≠ s.resp → i.mnemonic = "RDOUT" ∨ i.mnemonic = "RDIN") ∧
  ∀ s t : State, s.issued = [] → step s = .next t → t.resp = s.resp

/-- spec/10_state.md R32, spec/20_memory.md R51: no step takes an event out of BUSLOG, and no command but EXCH adds one. -/
def Obligations.BusLogOnlyGrowsAndOnlyByExch : Prop :=
  (∀ s t : State, step s = .next t → ∃ events, t.busLog = s.busLog ++ events) ∧
  ∀ (i : Instr) (s t : State), exec i s = .next t → t.busLog ≠ s.busLog → i = .exch

/-- spec/10_state.md R30: no step changes the configuration. -/
def Obligations.ConfigurationNeverChanges : Prop := ∀ s t : State, step s = .next t → t.cfg = s.cfg

/-- spec/10_state.md R26: every step keeps PHASE = Transacting exactly while SEL is asserted. -/
def Obligations.PhaseTransactingExactlyWhileSelAsserted : Prop :=
  ∀ s t : State, (s.phase = .transacting ↔ s.sel = .asserted) → step s = .next t →
    (t.phase = .transacting ↔ t.sel = .asserted)

/-- spec/10_state.md R23: every step keeps both buffers in canonical form and within 39 and 96 bytes (log 4). -/
def Obligations.BuffersKeepTheirForm : Prop :=
  ∀ s t : State, s.out.wf outSize = true → s.inb.wf inSize = true → step s = .next t →
    t.out.wf outSize = true ∧ t.inb.wf inSize = true

/-- spec/10_state.md R23, R26, R27, spec/41_transfer.md R101 to R104: every step keeps the invariant. That a
transaction in progress stands below beat 96 between steps is the model's choice (log 3), and so is the canonical form of the
buffers (log 4). -/
def Obligations.EveryStepKeepsTheInvariant : Prop := ∀ s t : State, s.Inv → step s = .next t → t.Inv

/-- spec/70_reset_and_hazards.md R173: the invariant holds after reset, for the site's configuration and for every well-formed
one. The invariant's beat bound and buffer form are the model's choices (log 3, log 4). -/
def Obligations.ResetMeetsTheInvariant : Prop :=
  State.reset.Inv ∧ ∀ c : Config, c.wf = true → (State.resetWith c).Inv

/-! ## Reset, configuration, instances -/

/-- spec/70_reset_and_hazards.md R173, R176 to R180: what reset leaves, for every configuration. The clause about State.reset,
that it has BUF_RESET = UNWRITTEN and so every byte unwritten, is the model's choice of the spec's default (log 9). -/
def Obligations.ResetState : Prop :=
  (∀ a, State.reset.out.read a = none ∧ State.reset.inb.read a = none) ∧
  ∀ c : Config,
    let s := State.resetWith c
    (s.phase = .idle ∧ s.sel = .deasserted ∧ s.beat = 0) ∧ (s.fault = none ∧ s.busLog = []) ∧
    (∀ a, a < outSize → s.out.read a = if c.bufReset = .zero then some 0#8 else none) ∧
    (∀ a, a < inSize → s.inb.read a = if c.bufReset = .zero then some 0#8 else none) ∧
    s.resp = none ∧ s.cfg = c

/-- spec/60_exceptions.md R163: a block is built exactly from arguments that pass the check, with the configuration they name;
others are refused. The model's choices in it: a FIELD_MAP may give only some regions and fields, and a region may not start at 0
beside a leading region, which starts there (spec/20_memory.md R52, spec/41_transfer.md R109; log 10); every field and region is
in range (spec/92_eei_decisions.md D5; log 11); a region has the size spec/20_memory.md R52 gives (log 31). -/
def Obligations.BuildRefusesIllegalArguments : Prop :=
  ∀ a : BuildArgs,
    (LegalArgs a → ∃ c : Config, State.build a = .next (State.resetWith c) ∧ c.wf = true ∧
      c.selId = a.selId ∧ c.leadLen.val = a.leadLen ∧ c.fieldMap = a.fieldMap ∧
      c.touchValidActive = a.touchValidActive ∧ c.pwOrder = a.pwOrder ∧ c.touchLayout = a.touchLayout ∧
      c.bufReset = a.bufReset ∧
      c.dpadPos.positions.map (fun q => (q.byte.val, q.bit.val)) = [a.dpadUp, a.dpadRight, a.dpadDown, a.dpadLeft] ∧
      c.ledOff.indices.map Fin.val = [a.ledR, a.ledG, a.ledB, a.ledOn, a.ledOff]) ∧
    (¬LegalArgs a → State.build a = .refused .configRefused)

/-- spec/60_exceptions.md R164: instances share no state: a step of the fleet is a step of one instance and leaves every other
as it was; and it keeps at most one transaction in progress (log 19). -/
def Obligations.InstancesShareNoState : Prop :=
  ∀ (f g : Fleet) (k : Nat), f.step k = .next g →
    (∃ (j : Nat) (s t : State), f.blocks[j]? = some s ∧ step s = .next t ∧ g.blocks[j]? = some t ∧
      ∀ i, i ≠ j → g.blocks[i]? = f.blocks[i]?) ∧
    (f.OneTransaction → g.OneTransaction)

/-- spec/60_exceptions.md R164, with the check of R163 (logs 10, 11 and 31): legal arguments with distinct SEL_IDs build every
instance in its own reset state, in order; legal arguments with two equal SEL_IDs are refused as such; arguments one of which
is illegal are refused; and instances that are built have distinct SEL_IDs. -/
def Obligations.DuplicateSelectLinesAreRefused : Prop :=
  ∀ args : List BuildArgs,
    ((∀ a ∈ args, LegalArgs a) → (args.map fun a => a.selId).Nodup →
      ∃ cs : List Config, Fleet.build args = .next ⟨cs.map State.resetWith⟩ ∧ cs.length = args.length ∧
        ∀ (k : Nat) (a : BuildArgs), args[k]? = some a →
          ∃ c, cs[k]? = some c ∧ c.wf = true ∧ c.selId = a.selId ∧ State.build a = .next (State.resetWith c)) ∧
    ((∀ a ∈ args, LegalArgs a) → ¬(args.map fun a => a.selId).Nodup → Fleet.build args = .refused .duplicateSelId) ∧
    ((∃ a ∈ args, ¬LegalArgs a) → ∃ r, Fleet.build args = .refused r) ∧
    ∀ f : Fleet, Fleet.build args = .next f →
      (f.blocks.map fun s => s.cfg.selId).Nodup ∧ f.blocks.length = args.length
end

