-- ==== Sys2Proof/Laws/Config.lean ====
section
/-! SUPPORT. What a configuration that passes the check of spec/60_exceptions.md R163 gives. -/

namespace Sys2Proof

/-- The Boolean check of every two members says what List.Pairwise says. -/
theorem pairwiseBool_iff {α : Type} (r : α → α → Bool) (l : List α) :
    pairwiseBool r l = true ↔ l.Pairwise fun a b => r a b = true := by
  induction l with
  | nil => simp [pairwiseBool]
  | cons x xs ih => simp [pairwiseBool, ih]

/-- The eight bits of a byte are bits of a buffer of `n` bytes exactly when the byte is. -/
theorem byteBits_inRange (o n : Nat) : (∀ q ∈ byteBits o, q.1 < n ∧ q.2 < 8) ↔ o < n := by
  simp only [byteBits, List.mem_map, List.mem_range]
  constructor
  · intro h; exact (h (o, 0) ⟨0, by omega, rfl⟩).1
  · rintro h q ⟨a, ha, rfl⟩; exact ⟨h, ha⟩

/-- A field is in range exactly when each of its bits is (spec/60_exceptions.md R163, clause 5). -/
theorem FieldShape.inRange_iff (s : FieldShape) : s.inRange = true ↔ ∀ q ∈ s.bits, q.1 < s.space.size ∧ q.2 < 8 := by
  cases s with
  | overrideFlag b n => simp [FieldShape.inRange, FieldShape.bits, FieldShape.space, Space.size]
  | flag sp b n => simp [FieldShape.inRange, FieldShape.bits, FieldShape.space]
  | byte8 sp o => simp only [FieldShape.inRange, FieldShape.bits, FieldShape.space, byteBits_inRange, decide_eq_true_eq]
  | pulseWidth sp o =>
    simp only [FieldShape.inRange, FieldShape.bits, FieldShape.space, List.forall_mem_append, byteBits_inRange,
      decide_eq_true_eq]
    omega
  | inertial o =>
    simp only [FieldShape.inRange, FieldShape.bits, FieldShape.space, List.forall_mem_append, byteBits_inRange,
      decide_eq_true_eq, Space.size]
    omega
  | finger o =>
    simp only [FieldShape.inRange, FieldShape.bits, FieldShape.space, List.forall_mem_append, byteBits_inRange,
      decide_eq_true_eq, Space.size]
    omega

/-- Two fields share no bit (spec/60_exceptions.md R163, clause 7). -/
theorem FieldShape.disjoint_iff (f g : FieldShape) :
    f.disjoint g = true ↔ (f.space = g.space → ∀ q ∈ f.bits, q ∉ g.bits) := by
  simp only [FieldShape.disjoint, Bool.or_eq_true, bne_iff_ne, List.all_eq_true, Bool.not_eq_true', List.contains_eq_mem,
    decide_eq_false_iff_not]
  tauto

/-- A region has the size spec/20_memory.md R52 gives it. -/
theorem Region.sizeOk_iff (r : Region) :
    r.sizeOk = true ↔ (r.id = .sticks → r.size = 4) ∧ (r.id = .triggers → r.size = 2) ∧
      (r.id = .inertial → r.size = 12) ∧ (r.id = .touchpad → 8 ≤ r.size) := by
  cases h : r.id <;> simp [Region.sizeOk, h]

theorem toFin?_of_lt {n k : Nat} (h : k < n) : toFin? n k = some ⟨k, h⟩ := by simp [toFin?, h]

theorem val_of_toFin? {n k : Nat} {x : Fin n} (h : toFin? n k = some x) : x.val = k := by
  unfold toFin? at h
  split at h <;> cases h
  rfl

theorem toInBit?_of_lt {p : Nat × Nat} (h : p.1 < inSize) (g : p.2 < 8) : toInBit? p = some ⟨⟨p.1, h⟩, ⟨p.2, g⟩⟩ := by
  simp [toInBit?, toFin?_of_lt h, toFin?_of_lt g]

/-- The check of a configuration, clause by clause. -/
theorem Config.wf_iff (c : Config) :
    c.wf = true ↔ c.dpadOk = true ∧ c.ledDistinct = true ∧ c.ledHoldsNoFlag = true ∧ c.fieldsInRange = true ∧
      c.regionsRise = true ∧ c.fieldsDisjoint = true ∧ c.regionSizes = true := by
  simp only [Config.wf, SiteParams.wf, Bool.and_eq_true, and_assoc]

/-- No two d-pad positions are equal (spec/60_exceptions.md R163, clause 2). -/
theorem Config.dpadPos_nodup {c : Config} (h : c.wf = true) : c.dpadPos.positions.Nodup := by
  have g := (c.wf_iff.mp h).1
  simp only [SiteParams.dpadOk, Bool.and_eq_true, pairwiseBool_iff] at g
  exact g.1.imp fun k => by simpa using k

/-- No two LED indices are equal (spec/60_exceptions.md R163, clause 3). -/
theorem Config.ledOff_nodup {c : Config} (h : c.wf = true) : c.ledOff.indices.Nodup := by
  have g := (c.wf_iff.mp h).2.1
  simp only [SiteParams.ledDistinct, pairwiseBool_iff] at g
  exact g.imp fun k => by simpa using k

end Sys2Proof
end

