-- ==== Sys2Proof/Laws/Decode.lean ====
section
/-! SUPPORT. What the decoder can answer, the fields of a word as numbers, and each table row as fields. -/

namespace Sys2Proof

theorem Cmd.field_toNat (w : Cmd) (lo n : Nat) : (w.field lo n).toNat = w.toNat / 2 ^ lo % 2 ^ n := by
  simp [Cmd.field, BitVec.extractLsb'_toNat, Nat.shiftRight_eq_div_pow]

theorem Cmd.field_beq_zero (w : Cmd) (lo n : Nat) : (w.field lo n == 0) = decide (w.toNat / 2 ^ lo % 2 ^ n = 0) := by
  rw [Bool.eq_iff_iff]
  simp only [beq_iff_eq, decide_eq_true_eq, ← Cmd.field_toNat, BitVec.toNat_eq]
  simp

theorem Cmd.field_eq_iff (w : Cmd) (lo n : Nat) (v : BitVec n) :
    w.field lo n = v ↔ ∀ i : Fin n, w.getLsbD (lo + i) = v.getLsbD i := by
  constructor
  · rintro rfl i; simp [Cmd.field, i.isLt]
  · intro h
    apply BitVec.eq_of_getLsbD_eq
    intro i hi
    have := h ⟨i, hi⟩
    simpa [Cmd.field, hi] using this

theorem Cmd.make_toNat (op rest : Nat) (h : op < 256) (hr : rest < 2 ^ 56) :
    (Cmd.make op rest).toNat = op * 2 ^ 56 + rest := by
  simp only [Cmd.make, BitVec.toNat_ofNat]; omega

/-- Everything the decoder can accept: the op byte, the zero bits, and the command with its operands. -/
theorem decode_cases {w : Cmd} {i : Instr} (h : decode w = .command i) :
    (w.op.toNat = 1 ∧ w.zerosW = true ∧ i = .wrout w.idx w.data) ∨
    (w.op.toNat = 2 ∧ w.zerosR = true ∧ i = .rdout w.idx) ∨
    (w.op.toNat = 3 ∧ w.zerosW = true ∧ i = .wrin w.idx w.data) ∨
    (w.op.toNat = 4 ∧ w.zerosR = true ∧ i = .rdin w.idx) ∨
    (w.op.toNat = 5 ∧ w.zerosN = true ∧ i = .exch) ∨
    (w.op.toNat = 6 ∧ w.zerosL = true ∧
      i = .setled (w.field 32 8) (w.field 24 8) (w.field 16 8) (w.field 8 8) (w.field 0 8)) := by
  unfold decode Decoded.guard at h
  split at h <;> first | (split at h <;> cases h <;> simp_all) | cases h

/-- Masking a word gives a value exactly when it does so bit by bit. -/
theorem Cmd.and_eq_iff (w m v : Cmd) : w &&& m = v ↔ ∀ i : Fin 64, (w.getLsbD i && m.getLsbD i) = v.getLsbD i := by
  constructor
  · rintro rfl i; simp
  · intro h
    apply BitVec.eq_of_getLsbD_eq
    intro i hi
    have := h ⟨i, hi⟩
    simpa using this

theorem Cmd.op_toNat_eq (w : Cmd) (k : Nat) (hk : k < 256) : w.op.toNat = k ↔ w.field 56 8 = BitVec.ofNat 8 k := by
  rw [BitVec.toNat_eq]; simp [Cmd.op, Nat.mod_eq_of_lt hk]

/-- The mask of format W with op byte 1 or 3, as fields. -/
theorem Cmd.matchesW1 (w : Cmd) :
    w &&& 0xFFFF00FFFFFFFF00#64 = 0x0100000000000000#64 ↔ w.op.toNat = 1 ∧ w.zerosW = true := by
  rw [Cmd.op_toNat_eq _ _ (by decide), Cmd.and_eq_iff]
  simp only [Cmd.zerosW, Bool.and_eq_true, beq_iff_eq, Cmd.field_eq_iff]
  simp [Fin.forall_fin_succ, BitVec.getLsbD, Nat.testBit]
  tauto

theorem Cmd.matchesW3 (w : Cmd) :
    w &&& 0xFFFF00FFFFFFFF00#64 = 0x0300000000000000#64 ↔ w.op.toNat = 3 ∧ w.zerosW = true := by
  rw [Cmd.op_toNat_eq _ _ (by decide), Cmd.and_eq_iff]
  simp only [Cmd.zerosW, Bool.and_eq_true, beq_iff_eq, Cmd.field_eq_iff]
  simp [Fin.forall_fin_succ, BitVec.getLsbD, Nat.testBit]
  tauto

theorem Cmd.matchesR2 (w : Cmd) :
    w &&& 0xFFFF00FFFFFFFFFF#64 = 0x0200000000000000#64 ↔ w.op.toNat = 2 ∧ w.zerosR = true := by
  rw [Cmd.op_toNat_eq _ _ (by decide), Cmd.and_eq_iff]
  simp only [Cmd.zerosR, Bool.and_eq_true, beq_iff_eq, Cmd.field_eq_iff]
  simp [Fin.forall_fin_succ, BitVec.getLsbD, Nat.testBit]
  tauto

theorem Cmd.matchesR4 (w : Cmd) :
    w &&& 0xFFFF00FFFFFFFFFF#64 = 0x0400000000000000#64 ↔ w.op.toNat = 4 ∧ w.zerosR = true := by
  rw [Cmd.op_toNat_eq _ _ (by decide), Cmd.and_eq_iff]
  simp only [Cmd.zerosR, Bool.and_eq_true, beq_iff_eq, Cmd.field_eq_iff]
  simp [Fin.forall_fin_succ, BitVec.getLsbD, Nat.testBit]
  tauto

theorem Cmd.matchesN5 (w : Cmd) :
    w &&& 0xFFFFFFFFFFFFFFFF#64 = 0x0500000000000000#64 ↔ w.op.toNat = 5 ∧ w.zerosN = true := by
  rw [Cmd.op_toNat_eq _ _ (by decide), Cmd.and_eq_iff]
  simp only [Cmd.zerosN, beq_iff_eq, Cmd.field_eq_iff]
  simp [Fin.forall_fin_succ, BitVec.getLsbD, Nat.testBit]
  tauto

theorem Cmd.matchesL6 (w : Cmd) :
    w &&& 0xFFFFFF0000000000#64 = 0x0600000000000000#64 ↔ w.op.toNat = 6 ∧ w.zerosL = true := by
  rw [Cmd.op_toNat_eq _ _ (by decide), Cmd.and_eq_iff]
  simp only [Cmd.zerosL, beq_iff_eq, Cmd.field_eq_iff]
  simp [Fin.forall_fin_succ, BitVec.getLsbD, Nat.testBit]
  tauto

end Sys2Proof
end

