-- ==== Sys2Proof/Laws/Memory.lean ====
section
/-! SUPPORT. The laws of the two buffers: read after write, the canonical form, and bits. -/

namespace Sys2Proof.Machine

@[simp] theorem Memory.read_write_same (m : Memory) (a : Nat) (v : Byte) : (m.write a v).read a = some v := by
  induction m with
  | nil => simp [Memory.write, Memory.read]
  | cons c rest ih =>
    obtain ⟨k, b⟩ := c
    simp only [Memory.write]
    split_ifs with h1 h2
    · simp [Memory.read]
    · simp [Memory.read]
    · simp [Memory.read, h2, ih]

theorem Memory.read_write_of_ne (m : Memory) {a c : Nat} (v : Byte) (h : c ≠ a) : (m.write a v).read c = m.read c := by
  induction m with
  | nil => simp [Memory.write, Memory.read, h]
  | cons e rest ih =>
    obtain ⟨k, b⟩ := e
    simp only [Memory.write]
    split_ifs with h1 h2
    · simp [Memory.read, h]
    · subst h2; simp [Memory.read, h]
    · simp [Memory.read, ih]

theorem Memory.read_write (m : Memory) (a c : Nat) (v : Byte) :
    (m.write a v).read c = if c = a then some v else m.read c := by
  split_ifs with h
  · subst h; simp
  · exact m.read_write_of_ne v h

/-- A write changes no cell from written to ⊥. -/
theorem Memory.read_write_ne_none {m : Memory} {a c : Nat} {v : Byte} (h : m.read c ≠ none) :
    (m.write a v).read c ≠ none := by
  rw [Memory.read_write]; split_ifs <;> simp [h]

theorem Memory.wfFrom_write {n lo a : Nat} {m : Memory} (v : Byte) (h : Memory.wfFrom n lo m = true) (hlo : lo ≤ a)
    (ha : a < n) : Memory.wfFrom n lo (m.write a v) = true := by
  induction m generalizing lo with
  | nil => simp [Memory.write, Memory.wfFrom, hlo, ha]
  | cons e rest ih =>
    obtain ⟨k, b⟩ := e
    simp only [Memory.wfFrom, Bool.and_eq_true, decide_eq_true_eq] at h
    obtain ⟨⟨h1, h2⟩, h3⟩ := h
    simp only [Memory.write]
    split_ifs with h4 h5
    · simp [Memory.wfFrom, hlo, ha, h2, h3, Nat.succ_le_of_lt h4]
    · subst h5; simp [Memory.wfFrom, hlo, ha, h3]
    · have h6 : k + 1 ≤ a := by omega
      simp [Memory.wfFrom, h1, h2, ih h3 h6]

/-- A write within the buffer keeps the canonical form. -/
theorem Memory.wf_write {n a : Nat} {m : Memory} (v : Byte) (h : m.wf n = true) (ha : a < n) :
    (m.write a v).wf n = true := Memory.wfFrom_write v h (Nat.zero_le a) ha

theorem Memory.wf_writeBit {m : Memory} (p : InBit) (v : Bool) (h : m.wf inSize = true) :
    (m.writeBit p v).wf inSize = true := by
  unfold Memory.writeBit
  split
  · exact Memory.wf_write _ h p.byte.isLt
  · exact h

/-- The d-pad decode keeps the canonical form. -/
theorem Memory.wf_dpadDecode {m : Memory} (p : DpadPos) (h : m.wf inSize = true) :
    (m.dpadDecode p).wf inSize = true := by
  unfold Memory.dpadDecode
  split
  · exact Memory.wf_writeBit _ _ (Memory.wf_writeBit _ _ (Memory.wf_writeBit _ _ (Memory.wf_writeBit _ _ h)))
  · exact h

theorem Memory.read_of_wfFrom_lt {n lo a : Nat} {m : Memory} (h : Memory.wfFrom n lo m = true) (ha : a < lo) :
    m.read a = none := by
  induction m generalizing lo with
  | nil => rfl
  | cons e rest ih =>
    obtain ⟨k, b⟩ := e
    simp only [Memory.wfFrom, Bool.and_eq_true, decide_eq_true_eq] at h
    obtain ⟨⟨h1, _⟩, h3⟩ := h
    have : a ≠ k := by omega
    simp [Memory.read, this, ih h3 (by omega)]

theorem Memory.read_of_wfFrom_ge {n lo a : Nat} {m : Memory} (h : Memory.wfFrom n lo m = true) (ha : n ≤ a) :
    m.read a = none := by
  induction m generalizing lo with
  | nil => rfl
  | cons e rest ih =>
    obtain ⟨k, b⟩ := e
    simp only [Memory.wfFrom, Bool.and_eq_true, decide_eq_true_eq] at h
    obtain ⟨⟨_, h2⟩, h3⟩ := h
    have : a ≠ k := by omega
    simp [Memory.read, this, ih h3]

/-- No address outside a buffer in canonical form holds a byte. -/
theorem Memory.read_outside {n a : Nat} {m : Memory} (h : m.wf n = true) (ha : n ≤ a) : m.read a = none :=
  Memory.read_of_wfFrom_ge h ha

theorem Memory.eq_of_read_eq_from {n lo : Nat} {m m' : Memory} (h : Memory.wfFrom n lo m = true)
    (h' : Memory.wfFrom n lo m' = true) (e : ∀ a, m.read a = m'.read a) : m = m' := by
  induction m generalizing lo m' with
  | nil =>
    cases m' with
    | nil => rfl
    | cons c rest =>
      obtain ⟨k, b⟩ := c
      have := e k
      simp [Memory.read] at this
  | cons c rest ih =>
    obtain ⟨k, b⟩ := c
    cases m' with
    | nil =>
      have := e k
      simp [Memory.read] at this
    | cons c' rest' =>
      obtain ⟨k', b'⟩ := c'
      simp only [Memory.wfFrom, Bool.and_eq_true, decide_eq_true_eq] at h h'
      obtain ⟨⟨_, _⟩, h3⟩ := h
      obtain ⟨⟨_, _⟩, h3'⟩ := h'
      have hk : k = k' := by
        rcases Nat.lt_trichotomy k k' with hlt | heq | hgt
        · have := e k
          simp [Memory.read, Nat.ne_of_lt hlt, Memory.read_of_wfFrom_lt h3' (Nat.lt_succ_of_lt hlt)] at this
        · exact heq
        · have := e k'
          simp [Memory.read, Nat.ne_of_lt hgt, Memory.read_of_wfFrom_lt h3 (Nat.lt_succ_of_lt hgt)] at this
      subst hk
      have hb : b = b' := by simpa [Memory.read] using e k
      subst hb
      have : rest = rest' := by
        refine ih h3 h3' fun a => ?_
        by_cases ha : a = k
        · subst ha
          rw [Memory.read_of_wfFrom_lt h3 (Nat.lt_succ_self _), Memory.read_of_wfFrom_lt h3' (Nat.lt_succ_self _)]
        · simpa [Memory.read, ha] using e a
      rw [this]

/-- Equal contents are equal data: two buffers in canonical form that read alike are one list. -/
theorem Memory.eq_of_read_eq {n : Nat} {m m' : Memory} (h : m.wf n = true) (h' : m'.wf n = true)
    (e : ∀ a, m.read a = m'.read a) : m = m' := Memory.eq_of_read_eq_from h h' e

theorem Memory.lowestUnwritten_eq_none {m : Memory} {lo k : Nat} :
    m.lowestUnwritten lo k = none ↔ ∀ a, lo ≤ a → a < lo + k → m.read a ≠ none := by
  induction k generalizing lo with
  | zero => simp only [Memory.lowestUnwritten, true_iff]; omega
  | succ k ih =>
    simp only [Memory.lowestUnwritten]
    split_ifs with h
    · simp only [false_iff, not_forall]
      exact ⟨lo, le_refl _, by omega, by simpa using h⟩
    · rw [ih]
      constructor
      · intro g a h1 h2
        by_cases ha : a = lo
        · subst ha; simpa using h
        · exact g a (by omega) (by omega)
      · intro g a h1 h2; exact g a (by omega) (by omega)

theorem Memory.lowestUnwritten_eq_some {m : Memory} {lo k i : Nat} (hi : lo ≤ i) (hk : i < lo + k) (h : m.read i = none)
    (g : ∀ j, lo ≤ j → j < i → m.read j ≠ none) : m.lowestUnwritten lo k = some i := by
  induction k generalizing lo with
  | zero => omega
  | succ k ih =>
    simp only [Memory.lowestUnwritten]
    split_ifs with hn
    · by_cases hl : lo = i
      · rw [hl]
      · exact absurd (by simpa using hn) (g lo (le_refl _) (by omega))
    · have hl : lo ≠ i := by rintro rfl; simp [h] at hn
      exact ih (by omega) (by omega) fun j h1 h2 => g j (by omega) h2

/-- The lowest unwritten address is unwritten, and every one before it is written. -/
theorem Memory.of_lowestUnwritten_eq_some {m : Memory} {lo k i : Nat} (h : m.lowestUnwritten lo k = some i) :
    lo ≤ i ∧ i < lo + k ∧ m.read i = none ∧ ∀ j, lo ≤ j → j < i → m.read j ≠ none := by
  induction k generalizing lo with
  | zero => cases h
  | succ k ih =>
    simp only [Memory.lowestUnwritten] at h
    split_ifs at h with hn
    · cases h
      exact ⟨le_refl _, by omega, by simpa using hn, fun j h1 h2 => absurd h2 (by omega)⟩
    · obtain ⟨h1, h2, h3, h4⟩ := ih h
      refine ⟨by omega, by omega, h3, fun j hj hi => ?_⟩
      by_cases e : j = lo
      · subst e; simpa using hn
      · exact h4 j (by omega) hi

/-- Bit k of a byte in which bit n was set to v (spec/40_codec.md R85). -/
theorem bitOf_withBit (b : Byte) (n k : Fin 8) (v : Bool) : bitOf (withBit b n v) k = if k = n then v else bitOf b k := by
  have hk := k.isLt
  have hn := n.isLt
  have e : k = n ↔ k.val = n.val := Fin.ext_iff
  have one : ∀ j : Nat, (1#8).getLsbD j = decide (j = 0) := fun j => by
    rcases j with _ | j
    · rfl
    · simp [BitVec.getLsbD, Nat.testBit_succ]
  unfold bitOf withBit
  simp only [BitVec.getLsbD_or, BitVec.getLsbD_and, BitVec.getLsbD_not, BitVec.getLsbD_shiftLeft, one, e]
  by_cases h : k.val = n.val
  · cases v <;> simp [h, hn]
  · rcases Nat.lt_or_gt_of_ne h with hl | hg
    · cases v <;> simp [h, hk, hl]
    · have h0 : k.val - n.val ≠ 0 := by omega
      have hl : ¬ k.val < n.val := by omega
      cases v
      · simp only [h, h0, hk, hl, if_false]; simp
      · simp only [h, h0, hk, hl, if_false, if_true]; simp; exact fun hz => absurd hz h0

theorem Memory.read_writeBit_of_ne {m : Memory} {p : InBit} {v : Bool} {a : Nat} (h : a ≠ p.byte.val) :
    (m.writeBit p v).read a = m.read a := by
  unfold Memory.writeBit
  split
  · exact Memory.read_write_of_ne m _ h
  · rfl

/-- Writing one bit: that bit of a written byte takes the value, and every other bit stays. -/
theorem Memory.readBit_writeBit (m : Memory) (p q : InBit) (v : Bool) :
    (m.writeBit p v).readBit q = if q = p then (m.readBit p).map fun _ => v else m.readBit q := by
  unfold Memory.writeBit Memory.readBit
  cases hp : m.read p.byte.val with
  | none =>
    by_cases h : q = p
    · subst h; simp [hp]
    · simp [h]
  | some b =>
    by_cases hb : q.byte = p.byte
    · by_cases h : q = p
      · subst h; simp [bitOf_withBit]
      · have hn : q.bit ≠ p.bit := fun e => h (by cases q; cases p; simp_all)
        simp [h, hb, hp, bitOf_withBit, hn]
    · have h : q ≠ p := fun e => hb (by rw [e])
      have hv : q.byte.val ≠ p.byte.val := fun e => hb (Fin.ext e)
      simp [h, Memory.read_write_of_ne _ _ hv]

end Sys2Proof.Machine
end

