-- ==== Sys2Proof/Laws/State.lean ====
section
/-! SUPPORT. One lemma per field of State per update of it, so that no proof unfolds a record update. -/

namespace Sys2Proof.Machine

@[simp] theorem State.putOut_out (s : State) (a : Nat) (v : Byte) : (s.putOut a v).out = s.out.write a v := rfl
@[simp] theorem State.putOut_inb (s : State) (a : Nat) (v : Byte) : (s.putOut a v).inb = s.inb := rfl
@[simp] theorem State.putOut_resp (s : State) (a : Nat) (v : Byte) : (s.putOut a v).resp = s.resp := rfl
@[simp] theorem State.putOut_phase (s : State) (a : Nat) (v : Byte) : (s.putOut a v).phase = s.phase := rfl
@[simp] theorem State.putOut_beat (s : State) (a : Nat) (v : Byte) : (s.putOut a v).beat = s.beat := rfl
@[simp] theorem State.putOut_sel (s : State) (a : Nat) (v : Byte) : (s.putOut a v).sel = s.sel := rfl
@[simp] theorem State.putOut_fault (s : State) (a : Nat) (v : Byte) : (s.putOut a v).fault = s.fault := rfl
@[simp] theorem State.putOut_busLog (s : State) (a : Nat) (v : Byte) : (s.putOut a v).busLog = s.busLog := rfl
@[simp] theorem State.putOut_cfg (s : State) (a : Nat) (v : Byte) : (s.putOut a v).cfg = s.cfg := rfl
@[simp] theorem State.putOut_issued (s : State) (a : Nat) (v : Byte) : (s.putOut a v).issued = s.issued := rfl
@[simp] theorem State.putOut_bus (s : State) (a : Nat) (v : Byte) : (s.putOut a v).bus = s.bus := rfl

@[simp] theorem State.putIn_out (s : State) (a : Nat) (v : Byte) : (s.putIn a v).out = s.out := rfl
@[simp] theorem State.putIn_inb (s : State) (a : Nat) (v : Byte) : (s.putIn a v).inb = s.inb.write a v := rfl
@[simp] theorem State.putIn_resp (s : State) (a : Nat) (v : Byte) : (s.putIn a v).resp = s.resp := rfl
@[simp] theorem State.putIn_phase (s : State) (a : Nat) (v : Byte) : (s.putIn a v).phase = s.phase := rfl
@[simp] theorem State.putIn_beat (s : State) (a : Nat) (v : Byte) : (s.putIn a v).beat = s.beat := rfl
@[simp] theorem State.putIn_sel (s : State) (a : Nat) (v : Byte) : (s.putIn a v).sel = s.sel := rfl
@[simp] theorem State.putIn_fault (s : State) (a : Nat) (v : Byte) : (s.putIn a v).fault = s.fault := rfl
@[simp] theorem State.putIn_busLog (s : State) (a : Nat) (v : Byte) : (s.putIn a v).busLog = s.busLog := rfl
@[simp] theorem State.putIn_cfg (s : State) (a : Nat) (v : Byte) : (s.putIn a v).cfg = s.cfg := rfl
@[simp] theorem State.putIn_issued (s : State) (a : Nat) (v : Byte) : (s.putIn a v).issued = s.issued := rfl
@[simp] theorem State.putIn_bus (s : State) (a : Nat) (v : Byte) : (s.putIn a v).bus = s.bus := rfl

@[simp] theorem State.putResp_out (s : State) (v : Byte) : (s.putResp v).out = s.out := rfl
@[simp] theorem State.putResp_inb (s : State) (v : Byte) : (s.putResp v).inb = s.inb := rfl
@[simp] theorem State.putResp_resp (s : State) (v : Byte) : (s.putResp v).resp = some v := rfl
@[simp] theorem State.putResp_phase (s : State) (v : Byte) : (s.putResp v).phase = s.phase := rfl
@[simp] theorem State.putResp_beat (s : State) (v : Byte) : (s.putResp v).beat = s.beat := rfl
@[simp] theorem State.putResp_sel (s : State) (v : Byte) : (s.putResp v).sel = s.sel := rfl
@[simp] theorem State.putResp_fault (s : State) (v : Byte) : (s.putResp v).fault = s.fault := rfl
@[simp] theorem State.putResp_busLog (s : State) (v : Byte) : (s.putResp v).busLog = s.busLog := rfl
@[simp] theorem State.putResp_cfg (s : State) (v : Byte) : (s.putResp v).cfg = s.cfg := rfl
@[simp] theorem State.putResp_issued (s : State) (v : Byte) : (s.putResp v).issued = s.issued := rfl
@[simp] theorem State.putResp_bus (s : State) (v : Byte) : (s.putResp v).bus = s.bus := rfl

@[simp] theorem State.raise_out (s : State) (c : FaultCode) (w : Cmd) (i : Option Nat) : (s.raise c w i).out = s.out := rfl
@[simp] theorem State.raise_inb (s : State) (c : FaultCode) (w : Cmd) (i : Option Nat) : (s.raise c w i).inb = s.inb := rfl
@[simp] theorem State.raise_resp (s : State) (c : FaultCode) (w : Cmd) (i : Option Nat) : (s.raise c w i).resp = s.resp := rfl
@[simp] theorem State.raise_phase (s : State) (c : FaultCode) (w : Cmd) (i : Option Nat) : (s.raise c w i).phase = s.phase := rfl
@[simp] theorem State.raise_beat (s : State) (c : FaultCode) (w : Cmd) (i : Option Nat) : (s.raise c w i).beat = s.beat := rfl
@[simp] theorem State.raise_sel (s : State) (c : FaultCode) (w : Cmd) (i : Option Nat) : (s.raise c w i).sel = s.sel := rfl
@[simp] theorem State.raise_fault (s : State) (c : FaultCode) (w : Cmd) (i : Option Nat) : (s.raise c w i).fault = some ⟨c, w, i⟩ := rfl
@[simp] theorem State.raise_busLog (s : State) (c : FaultCode) (w : Cmd) (i : Option Nat) : (s.raise c w i).busLog = s.busLog := rfl
@[simp] theorem State.raise_cfg (s : State) (c : FaultCode) (w : Cmd) (i : Option Nat) : (s.raise c w i).cfg = s.cfg := rfl
@[simp] theorem State.raise_issued (s : State) (c : FaultCode) (w : Cmd) (i : Option Nat) : (s.raise c w i).issued = s.issued := rfl
@[simp] theorem State.raise_bus (s : State) (c : FaultCode) (w : Cmd) (i : Option Nat) : (s.raise c w i).bus = s.bus := rfl

@[simp] theorem State.withIssued_out (s : State) (q : List Arrival) : (s.withIssued q).out = s.out := rfl
@[simp] theorem State.withIssued_inb (s : State) (q : List Arrival) : (s.withIssued q).inb = s.inb := rfl
@[simp] theorem State.withIssued_resp (s : State) (q : List Arrival) : (s.withIssued q).resp = s.resp := rfl
@[simp] theorem State.withIssued_phase (s : State) (q : List Arrival) : (s.withIssued q).phase = s.phase := rfl
@[simp] theorem State.withIssued_beat (s : State) (q : List Arrival) : (s.withIssued q).beat = s.beat := rfl
@[simp] theorem State.withIssued_sel (s : State) (q : List Arrival) : (s.withIssued q).sel = s.sel := rfl
@[simp] theorem State.withIssued_fault (s : State) (q : List Arrival) : (s.withIssued q).fault = s.fault := rfl
@[simp] theorem State.withIssued_busLog (s : State) (q : List Arrival) : (s.withIssued q).busLog = s.busLog := rfl
@[simp] theorem State.withIssued_cfg (s : State) (q : List Arrival) : (s.withIssued q).cfg = s.cfg := rfl
@[simp] theorem State.withIssued_issued (s : State) (q : List Arrival) : (s.withIssued q).issued = q := rfl
@[simp] theorem State.withIssued_bus (s : State) (q : List Arrival) : (s.withIssued q).bus = s.bus := rfl

@[simp] theorem State.withBus_out (s : State) (q : List BusReply) : (s.withBus q).out = s.out := rfl
@[simp] theorem State.withBus_inb (s : State) (q : List BusReply) : (s.withBus q).inb = s.inb := rfl
@[simp] theorem State.withBus_resp (s : State) (q : List BusReply) : (s.withBus q).resp = s.resp := rfl
@[simp] theorem State.withBus_phase (s : State) (q : List BusReply) : (s.withBus q).phase = s.phase := rfl
@[simp] theorem State.withBus_beat (s : State) (q : List BusReply) : (s.withBus q).beat = s.beat := rfl
@[simp] theorem State.withBus_sel (s : State) (q : List BusReply) : (s.withBus q).sel = s.sel := rfl
@[simp] theorem State.withBus_fault (s : State) (q : List BusReply) : (s.withBus q).fault = s.fault := rfl
@[simp] theorem State.withBus_busLog (s : State) (q : List BusReply) : (s.withBus q).busLog = s.busLog := rfl
@[simp] theorem State.withBus_cfg (s : State) (q : List BusReply) : (s.withBus q).cfg = s.cfg := rfl
@[simp] theorem State.withBus_issued (s : State) (q : List BusReply) : (s.withBus q).issued = s.issued := rfl
@[simp] theorem State.withBus_bus (s : State) (q : List BusReply) : (s.withBus q).bus = q := rfl

@[simp] theorem State.decodeDpad_out (s : State) : (s.decodeDpad).out = s.out := rfl
@[simp] theorem State.decodeDpad_inb (s : State) : (s.decodeDpad).inb = s.inb.dpadDecode s.cfg.dpadPos := rfl
@[simp] theorem State.decodeDpad_resp (s : State) : (s.decodeDpad).resp = s.resp := rfl
@[simp] theorem State.decodeDpad_phase (s : State) : (s.decodeDpad).phase = s.phase := rfl
@[simp] theorem State.decodeDpad_beat (s : State) : (s.decodeDpad).beat = s.beat := rfl
@[simp] theorem State.decodeDpad_sel (s : State) : (s.decodeDpad).sel = s.sel := rfl
@[simp] theorem State.decodeDpad_fault (s : State) : (s.decodeDpad).fault = s.fault := rfl
@[simp] theorem State.decodeDpad_busLog (s : State) : (s.decodeDpad).busLog = s.busLog := rfl
@[simp] theorem State.decodeDpad_cfg (s : State) : (s.decodeDpad).cfg = s.cfg := rfl
@[simp] theorem State.decodeDpad_issued (s : State) : (s.decodeDpad).issued = s.issued := rfl
@[simp] theorem State.decodeDpad_bus (s : State) : (s.decodeDpad).bus = s.bus := rfl

@[simp] theorem State.beginTransaction_out (s : State) : (s.beginTransaction).out = s.out := rfl
@[simp] theorem State.beginTransaction_inb (s : State) : (s.beginTransaction).inb = s.inb := rfl
@[simp] theorem State.beginTransaction_resp (s : State) : (s.beginTransaction).resp = s.resp := rfl
@[simp] theorem State.beginTransaction_phase (s : State) : (s.beginTransaction).phase = .transacting := rfl
@[simp] theorem State.beginTransaction_beat (s : State) : (s.beginTransaction).beat = 0 := rfl
@[simp] theorem State.beginTransaction_sel (s : State) : (s.beginTransaction).sel = .asserted := rfl
@[simp] theorem State.beginTransaction_fault (s : State) : (s.beginTransaction).fault = s.fault := rfl
@[simp] theorem State.beginTransaction_busLog (s : State) : (s.beginTransaction).busLog = s.busLog ++ [.assert s.cfg.selId] := rfl
@[simp] theorem State.beginTransaction_cfg (s : State) : (s.beginTransaction).cfg = s.cfg := rfl
@[simp] theorem State.beginTransaction_issued (s : State) : (s.beginTransaction).issued = s.issued := rfl
@[simp] theorem State.beginTransaction_bus (s : State) : (s.beginTransaction).bus = s.bus := rfl

@[simp] theorem State.endTransaction_out (s : State) : (s.endTransaction).out = s.out := rfl
@[simp] theorem State.endTransaction_inb (s : State) : (s.endTransaction).inb = s.inb := rfl
@[simp] theorem State.endTransaction_resp (s : State) : (s.endTransaction).resp = s.resp := rfl
@[simp] theorem State.endTransaction_phase (s : State) : (s.endTransaction).phase = .idle := rfl
@[simp] theorem State.endTransaction_beat (s : State) : (s.endTransaction).beat = s.beat := rfl
@[simp] theorem State.endTransaction_sel (s : State) : (s.endTransaction).sel = .deasserted := rfl
@[simp] theorem State.endTransaction_fault (s : State) : (s.endTransaction).fault = s.fault := rfl
@[simp] theorem State.endTransaction_busLog (s : State) : (s.endTransaction).busLog = s.busLog ++ [.deassert s.cfg.selId] := rfl
@[simp] theorem State.endTransaction_cfg (s : State) : (s.endTransaction).cfg = s.cfg := rfl
@[simp] theorem State.endTransaction_issued (s : State) : (s.endTransaction).issued = s.issued := rfl
@[simp] theorem State.endTransaction_bus (s : State) : (s.endTransaction).bus = s.bus := rfl

@[simp] theorem State.completeBeat_out (s : State) (mosi miso : Byte) : (s.completeBeat mosi miso).out = s.out := rfl
@[simp] theorem State.completeBeat_inb (s : State) (mosi miso : Byte) : (s.completeBeat mosi miso).inb = s.inb.write s.beat miso := rfl
@[simp] theorem State.completeBeat_resp (s : State) (mosi miso : Byte) : (s.completeBeat mosi miso).resp = s.resp := rfl
@[simp] theorem State.completeBeat_phase (s : State) (mosi miso : Byte) : (s.completeBeat mosi miso).phase = s.phase := rfl
@[simp] theorem State.completeBeat_beat (s : State) (mosi miso : Byte) : (s.completeBeat mosi miso).beat = s.beat + 1 := rfl
@[simp] theorem State.completeBeat_sel (s : State) (mosi miso : Byte) : (s.completeBeat mosi miso).sel = s.sel := rfl
@[simp] theorem State.completeBeat_fault (s : State) (mosi miso : Byte) : (s.completeBeat mosi miso).fault = s.fault := rfl
@[simp] theorem State.completeBeat_busLog (s : State) (mosi miso : Byte) : (s.completeBeat mosi miso).busLog = s.busLog ++ [.beat s.beat mosi miso] := rfl
@[simp] theorem State.completeBeat_cfg (s : State) (mosi miso : Byte) : (s.completeBeat mosi miso).cfg = s.cfg := rfl
@[simp] theorem State.completeBeat_issued (s : State) (mosi miso : Byte) : (s.completeBeat mosi miso).issued = s.issued := rfl
@[simp] theorem State.completeBeat_bus (s : State) (mosi miso : Byte) : (s.completeBeat mosi miso).bus = s.bus := rfl

@[simp] theorem State.issueProgram_out (s : State) (ws : List Cmd) : (s.issueProgram ws).out = s.out := rfl
@[simp] theorem State.issueProgram_inb (s : State) (ws : List Cmd) : (s.issueProgram ws).inb = s.inb := rfl
@[simp] theorem State.issueProgram_resp (s : State) (ws : List Cmd) : (s.issueProgram ws).resp = s.resp := rfl
@[simp] theorem State.issueProgram_phase (s : State) (ws : List Cmd) : (s.issueProgram ws).phase = s.phase := rfl
@[simp] theorem State.issueProgram_beat (s : State) (ws : List Cmd) : (s.issueProgram ws).beat = s.beat := rfl
@[simp] theorem State.issueProgram_sel (s : State) (ws : List Cmd) : (s.issueProgram ws).sel = s.sel := rfl
@[simp] theorem State.issueProgram_fault (s : State) (ws : List Cmd) : (s.issueProgram ws).fault = s.fault := rfl
@[simp] theorem State.issueProgram_busLog (s : State) (ws : List Cmd) : (s.issueProgram ws).busLog = s.busLog := rfl
@[simp] theorem State.issueProgram_cfg (s : State) (ws : List Cmd) : (s.issueProgram ws).cfg = s.cfg := rfl
@[simp] theorem State.issueProgram_issued (s : State) (ws : List Cmd) : (s.issueProgram ws).issued = s.issued ++ ws.map fun w => ⟨.owner, w⟩ := rfl
@[simp] theorem State.issueProgram_bus (s : State) (ws : List Cmd) : (s.issueProgram ws).bus = s.bus := rfl

end Sys2Proof.Machine
end

