-- ==== Sys2Proof/Laws/Ops.lean ====
section
/-! SUPPORT. One lemma per shared operation: the entry checks, the operand form, the byte moves, taking a fault. -/

namespace Sys2Proof.Machine

/-- The entry checks let a ready block run the command. -/
theorem guarded_ready {w : Cmd} {s : State} {body : Host.Outcome State Fault Refusal} (h : s.Ready) :
    guarded w s body = body := by simp [guarded, h.1, h.2]

theorem guarded_halted {w : Cmd} {s : State} {body : Host.Outcome State Fault Refusal} {r : FaultRecord}
    (h : s.fault = some r) : guarded w s body = .fault (.halted r) := by simp [guarded, h]

theorem guarded_overlap {w : Cmd} {s : State} {body : Host.Outcome State Fault Refusal} (h : s.fault = none)
    (p : s.phase = .transacting) : guarded w s body = .next (s.raise .overlap w none) := by simp [guarded, h, p]

/-- Everything the entry checks can answer with a next state: Overlap, or the ready block's own answer. -/
theorem guarded_eq_next {w : Cmd} {s t : State} {body : Host.Outcome State Fault Refusal}
    (h : guarded w s body = .next t) :
    (s.fault = none ∧ s.phase = .transacting ∧ t = s.raise .overlap w none) ∨ (s.Ready ∧ body = .next t) := by
  unfold guarded at h
  cases hf : s.fault with
  | some r => simp [hf] at h
  | none =>
    cases hp : s.phase with
    | transacting => exact .inl ⟨rfl, rfl, by simpa [hf, hp, eq_comm] using h⟩
    | idle => exact .inr ⟨⟨hf, hp⟩, by simpa [hf, hp] using h⟩

theorem atIndex_lt {sp : Space} {idx : BitVec 8} {w : Cmd} {s : State} {k : Nat → State} (h : idx.toNat < sp.size) :
    atIndex sp idx w s k = k idx.toNat := by simp [atIndex, h]

theorem atIndex_ge {sp : Space} {idx : BitVec 8} {w : Cmd} {s : State} {k : Nat → State} (h : sp.size ≤ idx.toNat) :
    atIndex sp idx w s k = s.raise .indexOutOfRange w (some idx.toNat) := by simp [atIndex, Nat.not_lt.mpr h]

theorem readToResp_some {sp : Space} {w : Cmd} {s : State} {a : Nat} {b : Byte} (h : (s.mem sp).read a = some b) :
    readToResp sp w s a = s.putResp b := by simp [readToResp, h]

theorem readToResp_none {sp : Space} {w : Cmd} {s : State} {a : Nat} (h : (s.mem sp).read a = none) :
    readToResp sp w s a = s.raise .unwrittenRead w (some a) := by simp [readToResp, h]

/-- Everything a read command can do to a ready block: put a byte into RESP, or raise. -/
theorem atIndex_readToResp_cases (sp : Space) (idx : BitVec 8) (w : Cmd) (s : State) :
    (∃ b, idx.toNat < sp.size ∧ (s.mem sp).read idx.toNat = some b ∧
      atIndex sp idx w s (readToResp sp w s) = s.putResp b) ∨
    ∃ c, atIndex sp idx w s (readToResp sp w s) = s.raise c w (some idx.toNat) := by
  by_cases h : idx.toNat < sp.size
  · rw [atIndex_lt h]
    cases hr : (s.mem sp).read idx.toNat with
    | some b => exact .inl ⟨b, h, rfl, readToResp_some hr⟩
    | none => exact .inr ⟨_, readToResp_none hr⟩
  · exact .inr ⟨_, atIndex_ge (Nat.not_lt.mp h)⟩

/-- Everything a write command can do to a ready block: write the byte, or raise. -/
theorem atIndex_writeByte_cases (sp : Space) (idx : BitVec 8) (w : Cmd) (s : State) (v : Byte) :
    (idx.toNat < sp.size ∧ atIndex sp idx w s (writeByte sp v s) = writeByte sp v s idx.toNat) ∨
    ∃ c, atIndex sp idx w s (writeByte sp v s) = s.raise c w (some idx.toNat) := by
  by_cases h : idx.toNat < sp.size
  · exact .inl ⟨h, atIndex_lt h⟩
  · exact .inr ⟨_, atIndex_ge (Nat.not_lt.mp h)⟩

@[simp] theorem writeByte_out (v : Byte) (s : State) (a : Nat) : writeByte .out v s a = s.putOut a v := rfl

@[simp] theorem writeByte_inb (v : Byte) (s : State) (a : Nat) : writeByte .inb v s a = s.putIn a v := rfl

@[simp] theorem State.mem_out (s : State) : s.mem .out = s.out := rfl

@[simp] theorem State.mem_inb (s : State) : s.mem .inb = s.inb := rfl

@[simp] theorem withIssued_self (s : State) : s.withIssued s.issued = s := rfl

@[simp] theorem withBus_self (s : State) : s.withBus s.bus = s := rfl

end Sys2Proof.Machine
end

