-- ==== Sys2Proof/Laws/FieldViews.lean ====
section
/-! SUPPORT. What the byte commands and the reads of a field view do on a ready block, in either space. -/

namespace Sys2Proof.Machine

/-- RDS at a written byte of its space. -/
theorem exec_readCmd {sp : Space} {a : BitVec 8} {v : Byte} {s : State} (h : s.Ready) (ha : a.toNat < sp.size)
    (hv : (s.mem sp).read a.toNat = some v) : exec (readCmd sp a) s = .next (s.putResp v) := by
  cases sp with
  | out =>
    simp only [readCmd, exec, execRdout]
    rw [guarded_ready h, atIndex_lt ha, readToResp_some hv]
  | inb =>
    simp only [readCmd, exec, execRdin]
    rw [guarded_ready h, atIndex_lt ha, readToResp_some hv]

/-- WRS inside its space. -/
theorem exec_writeCmd {sp : Space} {a v : BitVec 8} {s : State} (h : s.Ready) (ha : a.toNat < sp.size) :
    exec (writeCmd sp a v) s = .next (writeByte sp v s a.toNat) := by
  cases sp with
  | out =>
    simp only [writeCmd, exec, execWrout]
    rw [guarded_ready h, atIndex_lt ha]
  | inb =>
    simp only [writeCmd, exec, execWrin]
    rw [guarded_ready h, atIndex_lt ha]

theorem State.ready_putResp {s : State} {v : Byte} (h : s.Ready) : (s.putResp v).Ready := h

theorem State.ready_writeByte {sp : Space} {s : State} {v : Byte} {a : Nat} (h : s.Ready) :
    (writeByte sp v s a).Ready := by cases sp <;> exact h

@[simp] theorem State.mem_putResp (sp : Space) (s : State) (v : Byte) : (s.putResp v).mem sp = s.mem sp := by
  cases sp <;> rfl

@[simp] theorem State.mem_writeByte (sp : Space) (s : State) (v : Byte) (a : Nat) :
    (writeByte sp v s a).mem sp = (s.mem sp).write a v := by cases sp <;> rfl

/-- One read of a field view, then the others. -/
theorem readBytes_cons {sp : Space} {a : BitVec 8} {rest : List (BitVec 8)} {v : Byte} {bs : List Byte} {s u : State}
    (h : s.Ready) (ha : a.toNat < sp.size) (hv : (s.mem sp).read a.toNat = some v)
    (hr : readBytes sp rest (s.putResp v) = .next (u, some bs)) :
    readBytes sp (a :: rest) s = .next (u, some (v :: bs)) := by
  rw [readBytes, exec_readCmd h ha hv]
  simp [h.1, hr]

theorem readBytes_nil (sp : Space) (s : State) : readBytes sp [] s = .next (s, some []) := rfl

/-- The number a concatenation of bits denotes. -/
theorem toNat_append_bits {n m : Nat} (x : BitVec n) (y : BitVec m) : (x ++ y).toNat = x.toNat * 2 ^ m + y.toNat := by
  rw [BitVec.toNat_append, ← Nat.shiftLeft_add_eq_or_of_lt y.isLt, Nat.shiftLeft_eq]

end Sys2Proof.Machine
end

