-- ==== Sys2Proof/Laws/Instances.lean ====
section
/-! SUPPORT. What building several instances can answer. -/

namespace Sys2Proof.Machine

/-- Each argument of a list that is mapped gives the result at its place. -/
theorem getElem?_of_mapM {α β : Type} {f : α → Option β} {l : List α} {r : List β} (h : l.mapM f = some r) {k : Nat} {x : α}
    (hx : l[k]? = some x) : ∃ y, r[k]? = some y ∧ f x = some y := by
  induction l generalizing r k with
  | nil => simp at hx
  | cons z zs ih =>
    rw [List.mapM_cons] at h
    cases hz : f z with
    | none => simp [hz] at h
    | some y =>
      cases hr : zs.mapM f with
      | none => simp [hz, hr] at h
      | some ys =>
        simp [hz, hr] at h
        subst h
        cases k with
        | zero => simp at hx; subst hx; exact ⟨y, rfl, hz⟩
        | succ k => exact ih hr (by simpa using hx)

theorem length_of_mapM {α β : Type} {f : α → Option β} {l : List α} {r : List β} (h : l.mapM f = some r) :
    r.length = l.length := by
  induction l generalizing r with
  | nil => simp at h; subst h; rfl
  | cons z zs ih =>
    rw [List.mapM_cons] at h
    cases hz : f z with
    | none => simp [hz] at h
    | some y =>
      cases hr : zs.mapM f with
      | none => simp [hz, hr] at h
      | some ys => simp [hz, hr] at h; subst h; simp [ih hr]

/-- Building several instances: one answer for each of the three cases. -/
theorem Fleet.build_cases (args : List BuildArgs) :
    (args.mapM BuildArgs.config? = none ∧ Fleet.build args = .refused .configRefused) ∨
    ∃ cs, args.mapM BuildArgs.config? = some cs ∧
      (((cs.map fun c => c.selId).Nodup ∧ Fleet.build args = .next ⟨cs.map State.resetWith⟩) ∨
      (¬(cs.map fun c => c.selId).Nodup ∧ Fleet.build args = .refused .duplicateSelId)) := by
  unfold Fleet.build
  cases h : args.mapM BuildArgs.config? with
  | none => exact .inl ⟨rfl, rfl⟩
  | some cs =>
    have key : pairwiseBool (fun a b => a.selId != b.selId) cs = true ↔ (cs.map fun c => c.selId).Nodup := by
      rw [pairwiseBool_iff, List.Nodup, List.pairwise_map]
      simp
    refine .inr ⟨cs, rfl, ?_⟩
    by_cases hn : (cs.map fun c => c.selId).Nodup
    · exact .inl ⟨hn, by simp only; rw [if_pos (key.mpr hn)]⟩
    · exact .inr ⟨hn, by simp only; rw [if_neg fun g => hn (key.mp g)]⟩

end Sys2Proof.Machine
end

