-- ==== Sys2Proof/Laws/PerInstr.lean ====
section
/-! SUPPORT. The op byte of every command's word, one lemma a constructor (spec/30_encoding.md R61, R64). -/

namespace Sys2Proof

/-- The op byte of a word with at most 56 bits below it. -/
theorem Cmd.make_op (op rest : Nat) (h : op < 256) (hr : rest < 2 ^ 56) : (Cmd.make op rest).op.toNat = op := by
  rw [Cmd.op, Cmd.field_toNat, Cmd.make_toNat op rest h hr]
  omega

end Sys2Proof

namespace Sys2Proof.Laws.OpByte

/-- The op byte of the command's word is the opcode of its row. -/
def Statement (i : Instr) : Prop :=
  (i.mnemonic, (encode i).op.toNat) ∈
    [("WROUT", 1), ("RDOUT", 2), ("WRIN", 3), ("RDIN", 4), ("EXCH", 5), ("SETLED", 6)]

theorem wrout (idx data : BitVec 8) : Statement (.wrout idx data) := by
  have := idx.isLt; have := data.isLt
  simp only [Statement, encode]
  rw [Cmd.make_op _ _ (by decide) (by omega)]
  simp [Instr.mnemonic]

theorem rdout (idx : BitVec 8) : Statement (.rdout idx) := by
  have := idx.isLt
  simp only [Statement, encode]
  rw [Cmd.make_op _ _ (by decide) (by omega)]
  simp [Instr.mnemonic]

theorem wrin (idx data : BitVec 8) : Statement (.wrin idx data) := by
  have := idx.isLt; have := data.isLt
  simp only [Statement, encode]
  rw [Cmd.make_op _ _ (by decide) (by omega)]
  simp [Instr.mnemonic]

theorem rdin (idx : BitVec 8) : Statement (.rdin idx) := by
  have := idx.isLt
  simp only [Statement, encode]
  rw [Cmd.make_op _ _ (by decide) (by omega)]
  simp [Instr.mnemonic]

theorem exch : Statement .exch := by
  simp only [Statement, encode]
  rw [Cmd.make_op _ _ (by decide) (by omega)]
  simp [Instr.mnemonic]

theorem setled (r g b on off : BitVec 8) : Statement (.setled r g b on off) := by
  have := r.isLt; have := g.isLt; have := b.isLt; have := on.isLt; have := off.isLt
  simp only [Statement, encode]
  rw [Cmd.make_op _ _ (by decide) (by omega)]
  simp [Instr.mnemonic]

end Sys2Proof.Laws.OpByte
end

