-- ==== Sys2Proof/Laws/Transfer.lean ====
section
/-! SUPPORT. What the engine does: the beats the bus answers, the waits, and what a run of beats keeps. -/

namespace Sys2Proof.Machine

/-- Received bytes stored one after the other from address `i`. -/
def storeFrom (m : Memory) : Nat → List Byte → Memory
  | _, [] => m
  | i, b :: bs => storeFrom (m.write i b) (i + 1) bs

/-- The beat events of received bytes from beat `i`. -/
def State.eventsFrom (s : State) : Nat → List Byte → List BusEvent
  | _, [] => []
  | i, b :: bs => .beat i (s.sentByte i) b :: s.eventsFrom (i + 1) bs

theorem read_storeFrom (m : Memory) (i : Nat) (misos : List Byte) (a : Nat) :
    (storeFrom m i misos).read a =
      if i ≤ a ∧ a < i + misos.length then some (misos.getD (a - i) 0#8) else m.read a := by
  induction misos generalizing m i with
  | nil =>
    simp [storeFrom]
  | cons b bs ih =>
    simp only [storeFrom, ih, Memory.read_write, List.length_cons]
    by_cases h : a = i
    · subst h; simp
    · by_cases g : i + 1 ≤ a ∧ a < i + 1 + bs.length
      · have g' : i ≤ a ∧ a < i + (bs.length + 1) := by omega
        have e : a - i = a - (i + 1) + 1 := by omega
        simp [g, g', e]
      · have g' : ¬(i ≤ a ∧ a < i + (bs.length + 1)) := by omega
        rw [if_neg g, if_neg g', if_neg h]

theorem wf_storeFrom {n i : Nat} {m : Memory} (misos : List Byte) (h : m.wf n = true) (hi : i + misos.length ≤ n) :
    (storeFrom m i misos).wf n = true := by
  induction misos generalizing m i with
  | nil => exact h
  | cons b bs ih =>
    simp only [List.length_cons] at hi
    exact ih (Memory.wf_write b h (by omega)) (by omega)

theorem State.eventsFrom_eq (s : State) (i : Nat) (misos : List Byte) :
    s.eventsFrom i misos =
      (List.range misos.length).map fun j => .beat (i + j) (s.sentByte (i + j)) (misos.getD j 0#8) := by
  induction misos generalizing i with
  | nil => rfl
  | cons b bs ih =>
    rw [State.eventsFrom, ih, List.length_cons, List.range_succ_eq_map]
    simp [Nat.add_comm, Nat.add_left_comm]

theorem State.eventsFrom_zero (s : State) (misos : List Byte) : s.eventsFrom 0 misos = s.beatEvents misos misos.length := by
  simp [State.eventsFrom_eq, State.beatEvents]

theorem State.mosi_eq {s : State} (h : s.OutWritten) : s.mosi = some (s.sentByte s.beat) := by
  unfold State.mosi State.sentByte
  split_ifs with hb
  · cases hr : s.out.read s.beat with
    | none => exact absurd hr (h _ hb)
    | some b => rfl
  · rfl

/-- The state after beats that received `misos`, with `rest` the bus's further answers. -/
def State.afterBeats (s : State) (misos : List Byte) (rest : List BusReply) : State :=
  { s with
    inb := storeFrom s.inb s.beat misos, beat := s.beat + misos.length, bus := rest,
    busLog := s.busLog ++ s.eventsFrom s.beat misos }

theorem State.eventsFrom_congr (s t : State) (h : t.out = s.out) (i : Nat) (misos : List Byte) :
    t.eventsFrom i misos = s.eventsFrom i misos := by
  simp [State.eventsFrom_eq, State.sentByte, h]

/-- Beats that the bus answers complete one after the other. -/
theorem runBeats_answered (misos : List Byte) (n : Nat) (rest : List BusReply) {s : State} (h : s.OutWritten)
    (hb : s.bus = misos.map .byte ++ rest) :
    runBeats (misos.length + n) s = runBeats n (s.afterBeats misos rest) := by
  induction misos generalizing s with
  | nil =>
    have : s.afterBeats [] rest = s := by
      simp only [List.map_nil, List.nil_append] at hb
      subst hb
      simp [State.afterBeats, storeFrom, State.eventsFrom]
    simp [this]
  | cons b bs ih =>
    simp only [List.length_cons, List.map_cons, List.cons_append] at hb ⊢
    rw [show bs.length + 1 + n = (bs.length + n) + 1 by omega]
    simp only [runBeats, State.mosi_eq h, hb]
    rw [ih (s := (s.withBus (List.map BusReply.byte bs ++ rest)).completeBeat (s.sentByte s.beat) b) h rfl]
    congr 1
    simp [State.afterBeats, storeFrom, State.eventsFrom, State.withBus, State.completeBeat, List.append_assoc,
      Nat.add_assoc, Nat.add_comm 1]
    apply State.eventsFrom_congr
    rfl

/-- Where the bus has no answer, or stalls, the engine waits. -/
theorem runBeats_silent {n : Nat} {s : State} (h : s.OutWritten) (hb : s.bus = []) : runBeats (n + 1) s = s := by
  simp [runBeats, State.mosi_eq h, hb]

theorem runBeats_stall {n : Nat} {s : State} {rest : List BusReply} (h : s.OutWritten) (hb : s.bus = .stall :: rest) :
    runBeats (n + 1) s = s.withBus rest := by
  simp [runBeats, State.mosi_eq h, hb]

/-- A property that each thing a run of beats can do keeps, the whole run keeps. -/
theorem runBeats_keeps {P : State → Prop} (hbus : ∀ s q, P s → P (s.withBus q))
    (hbeat : ∀ s mosi miso, s.mosi = some mosi → P s → P (s.completeBeat mosi miso))
    (hraise : ∀ s c w i, P s → P (s.raise c w i)) (hend : ∀ s, P s → P s.endTransaction.decodeDpad) :
    ∀ n s, P s → P (runBeats n s) := by
  intro n
  induction n with
  | zero => exact fun s h => hend s h
  | succ n ih =>
    intro s h
    simp only [runBeats]
    split
    · exact hraise _ _ _ _ h
    · rename_i mosi hm
      split
      · exact h
      · exact hbus _ _ h
      · exact ih _ (hbeat _ _ _ hm (hbus _ _ h))

/-- What no run of beats changes. -/
theorem runBeats_frame (n : Nat) (s : State) :
    (runBeats n s).out = s.out ∧ (runBeats n s).resp = s.resp ∧ (runBeats n s).cfg = s.cfg ∧
      (runBeats n s).issued = s.issued :=
  runBeats_keeps (P := fun t => t.out = s.out ∧ t.resp = s.resp ∧ t.cfg = s.cfg ∧ t.issued = s.issued)
    (fun _ _ h => h) (fun _ _ _ _ h => h) (fun _ _ _ _ h => h) (fun _ h => h) n s ⟨rfl, rfl, rfl, rfl⟩

/-- A run of beats only adds events to the log. -/
theorem runBeats_busLog (n : Nat) (s : State) : ∃ events, (runBeats n s).busLog = s.busLog ++ events := by
  refine runBeats_keeps (P := fun t => ∃ events, t.busLog = s.busLog ++ events) (fun _ _ h => h) ?_
    (fun _ _ _ _ h => h) ?_ n s ⟨[], by simp⟩
  · rintro t mosi miso - ⟨e, he⟩
    exact ⟨e ++ [.beat t.beat mosi miso], by simp [he, List.append_assoc]⟩
  · rintro t ⟨e, he⟩
    exact ⟨e ++ [.deassert t.cfg.selId], by simp [he, List.append_assoc]⟩

/-- A run of beats over a written OUT raises nothing. -/
theorem runBeats_fault (n : Nat) {s : State} (h : s.OutWritten) : (runBeats n s).fault = s.fault := by
  induction n generalizing s with
  | zero => rfl
  | succ n ih =>
    simp only [runBeats, State.mosi_eq h]
    split
    · rfl
    · rfl
    · exact ih (s := (s.withBus _).completeBeat _ _) h

/-- The state inside an EXCH that began at `s`, after the beats that received `misos`. -/
def State.afterAnswers (s : State) (misos : List Byte) (rest : List BusReply) : State :=
  { s with
    inb := storeFrom s.inb 0 misos, beat := misos.length, phase := .transacting, sel := .asserted, bus := rest,
    busLog := s.busLog ++ .assert s.cfg.selId :: s.beatEvents misos misos.length }

theorem State.beginTransaction_afterBeats (s : State) (misos : List Byte) (rest : List BusReply) :
    s.beginTransaction.afterBeats misos rest = s.afterAnswers misos rest := by
  have e : s.beginTransaction.eventsFrom 0 misos = s.beatEvents misos misos.length := by
    rw [State.eventsFrom_congr s s.beginTransaction rfl, State.eventsFrom_zero]
  simp [State.afterBeats, State.afterAnswers, e]

theorem State.outWritten_beginTransaction {s : State} (h : s.OutWritten) : s.beginTransaction.OutWritten := h

theorem State.outWritten_afterAnswers {s : State} (h : s.OutWritten) (misos : List Byte) (rest : List BusReply) :
    (s.afterAnswers misos rest).OutWritten := h

theorem State.outWritten_withBus {s : State} (h : s.OutWritten) (q : List BusReply) : (s.withBus q).OutWritten := h

theorem State.ready_withBus {s : State} (h : s.Ready) (q : List BusReply) : (s.withBus q).Ready := h

/-- All that EXCH can do to a ready block: raise at the lowest unwritten byte, or run the engine. -/
theorem execExch_ready {s : State} (h : s.Ready) :
    (∃ i, s.out.lowestUnwritten 0 outSize = some i ∧
      execExch s = .next (s.raise .unwrittenRead (encode .exch) (some i))) ∨
    (s.OutWritten ∧ execExch s = .next (runBeats inSize s.beginTransaction)) := by
  unfold execExch
  rw [guarded_ready h]
  cases hl : s.out.lowestUnwritten 0 outSize with
  | some i => exact .inl ⟨i, rfl, rfl⟩
  | none =>
    have hw : s.OutWritten := fun a ha => Memory.lowestUnwritten_eq_none.mp hl a (Nat.zero_le a) (by omega)
    exact .inr ⟨hw, rfl⟩

theorem execExch_written {s : State} (h : s.Ready) (hw : s.OutWritten) :
    execExch s = .next (runBeats inSize s.beginTransaction) := by
  have hl : s.out.lowestUnwritten 0 outSize = none :=
    Memory.lowestUnwritten_eq_none.mpr fun a _ ha => hw a (by omega)
  unfold execExch
  rw [guarded_ready h, hl]
  rfl

/-- EXCH once the bus has answered its first beats: what is left is the engine from there on. -/
theorem execExch_answered {s : State} (misos : List Byte) (n : Nat) (rest : List BusReply) (h : s.Ready)
    (hw : s.OutWritten) (hl : misos.length + n = inSize) (hb : s.bus = misos.map .byte ++ rest) :
    execExch s = .next (runBeats n (s.afterAnswers misos rest)) := by
  rw [execExch_written h hw, ← hl, runBeats_answered misos n rest (State.outWritten_beginTransaction hw) hb,
    State.beginTransaction_afterBeats]

end Sys2Proof.Machine
end

