-- ==== Sys2Proof/Laws/Step.lean ====
section
/-! SUPPORT. Everything a command can do, and everything a step can do: the two inversions that claims about every
instruction or every step are derived from. -/

namespace Sys2Proof.Machine

/-- Everything a command that answers a next state can have done: raise a fault with its own word, or, on a ready block, its
own effect. -/
theorem exec_cases {i : Instr} {s t : State} (h : exec i s = .next t) :
    (∃ c x, t = s.raise c (encode i) x) ∨
    (s.Ready ∧
      ((∃ idx d, i = .wrout idx d ∧ idx.toNat < outSize ∧ t = s.putOut idx.toNat d) ∨
      (∃ idx d, i = .wrin idx d ∧ idx.toNat < inSize ∧ t = s.putIn idx.toNat d) ∨
      (∃ idx b, i = .rdout idx ∧ t = s.putResp b) ∨
      (∃ idx b, i = .rdin idx ∧ t = s.putResp b) ∨
      (i = .exch ∧ s.OutWritten ∧ t = runBeats inSize s.beginTransaction) ∨
      (∃ r g b on off, i = .setled r g b on off ∧
        t = ((((s.putOut s.cfg.ledOff.r.val r).putOut s.cfg.ledOff.g.val g).putOut s.cfg.ledOff.b.val b).putOut
          s.cfg.ledOff.on.val on).putOut s.cfg.ledOff.off.val off))) := by
  cases i with
  | wrout idx d =>
    rcases guarded_eq_next h with ⟨_, _, rfl⟩ | ⟨hr, e⟩
    · exact .inl ⟨_, _, rfl⟩
    · cases e
      rcases atIndex_writeByte_cases .out idx (encode (.wrout idx d)) s d with ⟨hl, e⟩ | ⟨c, e⟩ <;> rw [e]
      · exact .inr ⟨hr, .inl ⟨_, _, rfl, hl, rfl⟩⟩
      · exact .inl ⟨_, _, rfl⟩
  | wrin idx d =>
    rcases guarded_eq_next h with ⟨_, _, rfl⟩ | ⟨hr, e⟩
    · exact .inl ⟨_, _, rfl⟩
    · cases e
      rcases atIndex_writeByte_cases .inb idx (encode (.wrin idx d)) s d with ⟨hl, e⟩ | ⟨c, e⟩ <;> rw [e]
      · exact .inr ⟨hr, .inr (.inl ⟨_, _, rfl, hl, rfl⟩)⟩
      · exact .inl ⟨_, _, rfl⟩
  | rdout idx =>
    rcases guarded_eq_next h with ⟨_, _, rfl⟩ | ⟨hr, e⟩
    · exact .inl ⟨_, _, rfl⟩
    · cases e
      rcases atIndex_readToResp_cases .out idx (encode (.rdout idx)) s with ⟨b, hl, _, e⟩ | ⟨c, e⟩ <;> rw [e]
      · exact .inr ⟨hr, .inr (.inr (.inl ⟨_, _, rfl, rfl⟩))⟩
      · exact .inl ⟨_, _, rfl⟩
  | rdin idx =>
    rcases guarded_eq_next h with ⟨_, _, rfl⟩ | ⟨hr, e⟩
    · exact .inl ⟨_, _, rfl⟩
    · cases e
      rcases atIndex_readToResp_cases .inb idx (encode (.rdin idx)) s with ⟨b, hl, _, e⟩ | ⟨c, e⟩ <;> rw [e]
      · exact .inr ⟨hr, .inr (.inr (.inr (.inl ⟨_, _, rfl, rfl⟩)))⟩
      · exact .inl ⟨_, _, rfl⟩
  | exch =>
    change execExch s = _ at h
    rcases guarded_eq_next h with ⟨_, _, rfl⟩ | ⟨hr, _⟩
    · exact .inl ⟨_, _, rfl⟩
    · rcases execExch_ready hr with ⟨i, _, e⟩ | ⟨hw, e⟩ <;> rw [e] at h <;> cases h
      · exact .inl ⟨_, _, rfl⟩
      · exact .inr ⟨hr, .inr (.inr (.inr (.inr (.inl ⟨rfl, hw, rfl⟩))))⟩
  | setled r g b on off =>
    rcases guarded_eq_next h with ⟨_, _, rfl⟩ | ⟨hr, e⟩
    · exact .inl ⟨_, _, rfl⟩
    · cases e; exact .inr ⟨hr, .inr (.inr (.inr (.inr (.inr ⟨_, _, _, _, _, rfl, rfl⟩))))⟩

/-- Everything a step that answers a next state can have done: run an arriving command, record an illegal word, or let the
engine go on or an idle block wait. -/
theorem step_cases {s t : State} (h : step s = .next t) :
    s.fault = none ∧
      ((∃ i rest, s.issued ≠ [] ∧ exec i (s.withIssued rest) = .next t) ∨
      (∃ rest c w x, s.issued ≠ [] ∧ t = (s.withIssued rest).raise c w x) ∨
      t = s.proceed) := by
  unfold step fetch at h
  cases hf : s.fault with
  | some r => simp [hf] at h
  | none =>
    refine ⟨rfl, ?_⟩
    simp only [hf] at h
    cases hn : s.nextArrival with
    | none => simp only [hn] at h; cases h; exact .inr (.inr rfl)
    | some p =>
      obtain ⟨w, u⟩ := p
      have hu : s.issued ≠ [] ∧ ∃ rest, u = s.withIssued rest := by
        unfold State.nextArrival at hn
        split at hn
        · cases hn
        · rename_i a rest hi
          refine ⟨by rw [hi]; simp, ?_⟩
          split at hn
          · cases hn
          · cases hn; exact ⟨_, rfl⟩
      obtain ⟨hne, rest, rfl⟩ := hu
      simp only [hn] at h
      cases hd : decode w with
      | command i => simp only [hd] at h; exact .inl ⟨i, rest, hne, h⟩
      | illegal y => simp only [hd] at h; cases h; exact .inr (.inl ⟨rest, _, _, _, hne, rfl⟩)

/-- With no command arriving, an idle block stays as it is and a transaction goes on. -/
theorem proceed_cases (s : State) :
    (s.phase = .idle ∧ s.proceed = s) ∨ (s.phase = .transacting ∧ s.proceed = s.engine) := by
  unfold State.proceed; cases hp : s.phase <;> simp

end Sys2Proof.Machine
end

