-- ==== Sys2Proof/Tests/Slice0.lean ====
section
/-! SUPPORT. Tests of single steps, with expected results taken from spec/95_test_vectors.md and the encoding tables of
spec/30_encoding.md, an ill-formed term for each check, and for each obligation that has hypotheses a state and operands
that meet them. -/

namespace Sys2Proof.Tests

open Sys2Proof.Machine

/-! ## Small states -/

/-- Reset with the example configuration EX (spec/92_eei_decisions.md D36). -/
def ready : State := State.resetWith Config.ex

/-- The same with every OUT byte 0x00 (the INIT listing of spec/95_test_vectors.md). -/
def written : State := { ready with out := Memory.atReset .zero outSize }

/-- An EXCH that waits at beat 0. -/
def waiting : State := { written with phase := .transacting, sel := .asserted, busLog := [.assert 0] }

/-- A faulted block. -/
def halted : State := ready.raise .indexOutOfRange 0x0400600000000000#64 (some 96)

/-- Whether an outcome is a next state of which `p` holds. -/
def nextHas (o : Host.Outcome State Fault Refusal) (p : State → Bool) : Bool :=
  match o with
  | .next t => p t
  | _ => false

/-- Whether a field view ends in a next state of which `p` holds. -/
def viewHas (o : Host.Outcome (State × Option FieldValue) Fault Refusal) (p : State → Option FieldValue → Bool) : Bool :=
  match o with
  | .next (t, v) => p t v
  | _ => false

/-- One step in which the word arrives. -/
def run (s : State) (w : Cmd) : Host.Outcome State Fault Refusal := step (s.issueNext w)

/-! ## Ill-formed terms, one for each check -/

theorem test_wf_asm_line :
    [AsmLine.wrout 256 0, .wrout 0 256, .rdout 256, .wrin 256 0, .wrin 0 256, .rdin 256, .setled 256 0 0 0 0,
      .setled 0 256 0 0 0, .setled 0 0 256 0 0, .setled 0 0 0 256 0, .setled 0 0 0 0 256].all (fun l => !l.wf) = true := by
  decide

theorem test_wf_example : Config.ex.wf = true := by decide

theorem test_wf_dpad_equal_positions :
    ({ SiteParams.ex with dpadPos := ⟨⟨6, 0⟩, ⟨6, 1⟩, ⟨6, 0⟩, ⟨6, 3⟩⟩ } : SiteParams).dpadOk = false := by decide

theorem test_wf_dpad_outside_button_block :
    ({ SiteParams.ex with fieldMap := ⟨[⟨.buttons, 7, 3⟩], []⟩ } : SiteParams).dpadOk = false := by decide

theorem test_wf_led_equal_indices :
    ({ SiteParams.ex with ledOff := ⟨8, 9, 10, 11, 8⟩ } : SiteParams).ledDistinct = false := by decide

theorem test_wf_led_on_flag_byte :
    ({ SiteParams.ex with ledOff := ⟨8, 9, 10, 11, 1⟩ } : SiteParams).ledHoldsNoFlag = false := by decide

theorem test_wf_field_out_of_range :
    [FieldShape.overrideFlag 39 0, .overrideFlag 0 8, .flag .inb 96 0, .flag .out 0 8, .byte8 .out 39, .pulseWidth .out 38,
      .pulseWidth .inb 95, .inertial 95, .finger 93].all (fun f => !f.inRange) = true := by decide

theorem test_wf_region_out_of_range :
    ({ SiteParams.ex with fieldMap := ⟨[⟨.mirror, 90, 7⟩], []⟩ } : SiteParams).fieldsInRange = false := by decide

theorem test_wf_regions_fall :
    ({ SiteParams.ex with fieldMap := ⟨[⟨.sticks, 9, 4⟩, ⟨.triggers, 8, 2⟩], []⟩ } : SiteParams).regionsRise = false := by
  decide

theorem test_wf_region_at_the_leading_region :
    ({ SiteParams.ex with fieldMap := ⟨[⟨.reportId, 0, 1⟩], []⟩ } : SiteParams).regionsRise = false := by decide

theorem test_wf_region_sizes :
    [Region.mk .sticks 94 1, ⟨.sticks, 2, 5⟩, ⟨.triggers, 9, 1⟩, ⟨.inertial, 20, 11⟩, ⟨.touchpad, 40, 7⟩].all
      (fun r => !({ SiteParams.ex with fieldMap := ⟨[r], []⟩ } : SiteParams).regionSizes) = true := by decide

/-- Regions of the sizes of spec/20_memory.md R52, in its order, at offsets of this test's own. -/
theorem test_wf_regions :
    ({ SiteParams.ex with
      fieldMap :=
        ⟨[⟨.reportId, 1, 1⟩, ⟨.sticks, 2, 4⟩, ⟨.buttons, 6, 3⟩, ⟨.triggers, 9, 2⟩, ⟨.inertial, 14, 12⟩, ⟨.battery, 31, 1⟩,
          ⟨.touchpad, 34, 9⟩, ⟨.mirror, 44, 52⟩], []⟩ } : SiteParams).wf = true := by decide

theorem test_wf_fields_share_a_bit :
    ({ SiteParams.ex with fieldMap := ⟨[], [⟨"a", .flag .out 15 7⟩, ⟨"b", .pulseWidth .out 14⟩]⟩ } :
      SiteParams).fieldsDisjoint = false := by decide

/-- EX as a builder writes it down. -/
def exArgs : BuildArgs :=
  { selId := 0, dpadUp := (6, 0), dpadRight := (6, 1), dpadDown := (6, 2), dpadLeft := (6, 3), ledR := 8, ledG := 9,
    ledB := 10, ledOn := 11, ledOff := 12, fieldMap := SiteParams.ex.fieldMap, leadLen := 1, touchValidActive := true,
    pwOrder := .little, touchLayout := .lsbAlloc, bufReset := .unwritten }

theorem test_build_example : exArgs.config? = some Config.ex := by decide

theorem test_build_refuses_out_of_range :
    [{ exArgs with leadLen := 96 }, { exArgs with dpadUp := (96, 0) }, { exArgs with dpadLeft := (6, 8) },
      { exArgs with ledOff := 39 }].all (fun a => a.config?.isNone) = true := by decide

/-! ## Decoding: words written out field by field from spec/30_encoding.md R61 and R64 -/

/-- Format W: op 01, zeros, idx 26 (38), zeros, data FF. -/
theorem test_decode_wrout :
    decode (0x01#8 ++ 0x00#8 ++ 0x26#8 ++ 0x00000000#32 ++ 0xFF#8) = .command (.wrout 38 255) := by decide

/-- Format R: op 02, zeros, idx 05, zeros. -/
theorem test_decode_rdout : decode (0x02#8 ++ 0x00#8 ++ 0x05#8 ++ 0x0000000000#40) = .command (.rdout 5) := by decide

/-- Format W: op 03, zeros, idx 5F (95), zeros, data 12. -/
theorem test_decode_wrin :
    decode (0x03#8 ++ 0x00#8 ++ 0x5F#8 ++ 0x00000000#32 ++ 0x12#8) = .command (.wrin 95 0x12) := by decide

/-- Format R: op 04, zeros, idx FF, zeros. -/
theorem test_decode_rdin : decode (0x04#8 ++ 0x00#8 ++ 0xFF#8 ++ 0x0000000000#40) = .command (.rdin 255) := by decide

/-- Format N: op 05, zeros. -/
theorem test_decode_exch : decode (0x05#8 ++ 0x00000000000000#56) = .command .exch := by decide

/-- Format L: op 06, zeros, then r, g, b, on, off. -/
theorem test_decode_setled :
    decode (0x06#8 ++ 0x0000#16 ++ 0x0A#8 ++ 0x14#8 ++ 0x1E#8 ++ 0x01#8 ++ 0x02#8) =
      .command (.setled 10 20 30 1 2) := by decide

/-- V-C10 to V-C14 and V-L4: the illegal words, the last two with a legal op and an operand beside the set bit. -/
theorem test_decode_illegal :
    [0x0000000000000000#64, 0x0700000000000000#64, 0x0101030000000080#64, 0x0200030000000001#64, 0x0101C80000000000#64,
      0x0600010A141E0102#64].all (fun w => match decode w with | .illegal _ => true | .command _ => false) = true := by
  decide

theorem test_table_word :
    decodeTableWord 64 0x0600000A141E0102 = some (.setled 10 20 30 1 2) ∧
    decodeTableWord 64 0x0600010A141E0102 = none := by decide

/-! ## The commands -/

/-- V-C1. -/
theorem test_wrout_stores :
    nextHas (run ready 0x0100030000000080#64) (fun t => t.out.read 3 == some 0x80#8 && t.fault.isNone) = true := by decide

/-- V-C3. -/
theorem test_wrout_index_39 :
    nextHas (run ready 0x0100270000000000#64)
      (fun t => t.fault == some ⟨.indexOutOfRange, 0x0100270000000000#64, some 39⟩ && t.out == []) = true := by decide

/-- V-C4. -/
theorem test_rdout_unwritten :
    nextHas (run ready 0x0200000000000000#64)
      (fun t => t.fault == some ⟨.unwrittenRead, 0x0200000000000000#64, some 0⟩ && t.resp.isNone) = true := by decide

/-- V-C5. -/
theorem test_rdout_zero :
    nextHas (run (State.resetWith { Config.ex with bufReset := .zero }) 0x0200000000000000#64)
      (fun t => t.resp == some 0x00#8 && t.fault.isNone) = true := by decide

/-- V-C9: a byte written raw is not decoded. -/
theorem test_wrin_stays_raw :
    nextHas (run ready 0x0300060000000005#64) (fun t => t.inb.read 6 == some 0x05#8 && t.out == [] && t.resp.isNone) =
      true := by decide

/-- V-C7. -/
theorem test_rdin_index_96 :
    nextHas (run ready 0x0400600000000000#64)
      (fun t => t.fault == some ⟨.indexOutOfRange, 0x0400600000000000#64, some 96⟩) = true := by decide

/-- V-C6, its second command. -/
theorem test_rdin_reads :
    nextHas (run (ready.putIn 95 0x12#8) 0x04005F0000000000#64) (fun t => t.resp == some 0x12#8) = true := by decide

/-- The example of spec/41_transfer.md R100, V-X1: the device answers beat i with i. -/
theorem test_exch_echo :
    nextHas (run (written.withBus ((List.range 96).map fun i => .byte (BitVec.ofNat 8 i))) 0x0500000000000000#64)
      (fun t =>
        (List.range 96).all (fun i => t.inb.read i == some (if i = 6 then 0x08#8 else BitVec.ofNat 8 i)) &&
        t.busLog ==
          [BusEvent.assert 0] ++
          (List.range 96).map (fun i => .beat i (if i < 39 then 0x00#8 else 0xCD#8) (BitVec.ofNat 8 i)) ++
          [.deassert 0] &&
        t.phase == .idle && t.sel == .deasserted && t.fault.isNone) = true := by decide +kernel

/-- V-X6: the device never completes beat 17. -/
theorem test_exch_waits :
    nextHas (run (written.withBus (List.replicate 17 (.byte 0xFF#8))) 0x0500000000000000#64)
      (fun t => t.busLog.length == 18 && t.beat == 17 && t.phase == .transacting && t.sel == .asserted &&
        t.fault.isNone) = true := by decide +kernel

/-- V-X7: a second issuer's RDIN 0 while the EXCH waits. -/
theorem test_overlap :
    nextHas (run waiting 0x0400000000000000#64)
      (fun t => t.fault == some ⟨.overlap, 0x0400000000000000#64, none⟩ && t.phase == .transacting) = true := by decide

/-- V-L1. -/
theorem test_setled_writes :
    nextHas (run written 0x0600000A141E0102#64)
      (fun t => [8, 9, 10, 11, 12].map t.out.read == [some 10#8, some 20#8, some 30#8, some 1#8, some 2#8] &&
        t.out.read 7 == some 0#8 && t.out.read 13 == some 0#8 && t.out.read 0 == some 0#8) = true := by decide

/-- V-L3: the byte 0 stays unwritten, so the next EXCH would fault at 0. -/
theorem test_setled_leaves_unwritten :
    nextHas (run ready 0x0600000102030405#64)
      (fun t => t.out.lowestUnwritten 0 39 == some 0 && t.out.length == 5) = true := by decide

/-- V-C16, its second command: a faulted block runs nothing. -/
theorem test_halted_takes_no_step :
    run halted 0x0100000000000001#64 = .fault (.halted ⟨.indexOutOfRange, 0x0400600000000000#64, some 96⟩) := rfl

/-! ## The d-pad decoder on positions that are no nibble -/

/-- The positions of V-D17 and V-D18. -/
def spread : DpadPos := ⟨⟨7, 7⟩, ⟨2, 0⟩, ⟨2, 5⟩, ⟨9, 1⟩⟩

/-- V-D17. -/
theorem test_dpad_spread :
    let m := Memory.dpadDecode [(2, 0x21#8), (7, 0x80#8), (9, 0x00#8)] spread
    m = [(2, 0x00#8), (7, 0x80#8), (9, 0x02#8)] := by decide

/-- V-D18. -/
theorem test_dpad_spread_code_0 :
    let m := Memory.dpadDecode [(2, 0xDE#8), (7, 0x7F#8), (9, 0xFD#8)] spread
    m = [(2, 0xDE#8), (7, 0xFF#8), (9, 0xFD#8)] := by decide

/-! ## Field views -/

/-- V-F2. -/
theorem test_setbit :
    viewHas (execPseudo (.setbit .out 1 3 false) (ready.putOut 1 0xFF#8)) (fun t _ => t.out.read 1 == some 0xF7#8) = true := by
  decide

/-- V-F6: big order. -/
theorem test_setpw_big :
    viewHas (execPseudo (.setpw .out 14 1500) (State.resetWith { Config.ex with pwOrder := .big }))
      (fun t _ => t.out == [(14, 0x05#8), (15, 0xDC#8)]) = true := by decide

/-- V-F9. -/
theorem test_getpw :
    viewHas (execPseudo (.getpw .inb 20) ((ready.putIn 20 0x00#8).putIn 21 0x80#8)) (fun _ v => v == some (.pulse 32768)) =
      true := by decide

/-- V-F12. -/
theorem test_getimu :
    viewHas (execPseudo (.getimu 20) ((ready.putIn 20 0xFF#8).putIn 21 0x38#8)) (fun _ v => v == some (.reading (-200))) =
      true := by decide

/-- V-F15. -/
theorem test_gettouch_lsb :
    fingerValue .lsbAlloc 0x85#8 0x34#8 0x12#8 0xAB#8 = { id := 5, valid := true, x := 564, y := 2737 } := by decide

/-- V-F16. -/
theorem test_gettouch_msb :
    fingerValue .msbAlloc 0x85#8 0x34#8 0x12#8 0xAB#8 = { id := 66, valid := true, x := 833, y := 683 } := by decide

/-! ## The assembler -/

/-- Lines of spec/30_encoding.md R67 and R69. -/
theorem test_assembler_lines :
    assembleText ['W', 'R', 'O', 'U', 'T', ' ', '3', '8', ',', ' ', '0', 'x', 'F', 'F'] = .command (.wrout 38 255) ∧
    assembleText ['R', 'D', 'I', 'N', ' ', ' ', '9', '6', ' ', ';', ' ', 'x'] = .command (.rdin 96) ∧
    assembleText ['E', 'X', 'C', 'H'] = .command .exch ∧
    assembleText [';', ' ', 'E', 'X', 'C', 'H'] = .blank ∧
    assembleText ['R', 'D', 'I', 'N', ' ', '2', '5', '6'] = .rejected := by decide

/-! ## Witnesses: for each obligation with hypotheses, named after it, a state and operands that meet them, clause by clause,
at the ends of their ranges -/

/-- OUT written but for byte 38. -/
def allBut38 : State := { ready with out := (List.range 38).map fun a => (a, 0#8) }

/-- Every OUT byte written, IN's last bytes written. -/
def bothWritten : State := { written with inb := [(0, 5#8), (92, 1#8), (93, 2#8), (94, 0x80#8), (95, 4#8)] }

/-- `written` with a bus that answers `k` bytes, then the given answers. -/
def answering (k : Nat) (rest : List BusReply) : State := written.withBus ((List.replicate k 0x10#8).map .byte ++ rest)

/-- `waiting` with a bus that stalls and then answers every beat. -/
def fairWaiting : State := waiting.withBus (.stall :: List.replicate 96 (.byte 1#8))

theorem ready_is_ready : ready.Ready := ⟨rfl, rfl⟩

theorem written_is_ready : written.Ready := ⟨rfl, rfl⟩

theorem answering_is_ready (k : Nat) (rest : List BusReply) : (answering k rest).Ready := ⟨rfl, rfl⟩

theorem written_outWritten : written.OutWritten := by unfold State.OutWritten; decide

theorem answering_outWritten (k : Nat) (rest : List BusReply) : (answering k rest).OutWritten :=
  State.outWritten_withBus written_outWritten _

theorem waiting_noOverlap : waiting.NoOverlap := by intro a h; cases h

theorem waiting_inv : waiting.Inv :=
  { out_wf := by decide, inb_wf := by decide, cfg_wf := by decide, beat_le := by decide, phase_sel := by decide
    beat_lt := by decide, out_written := fun _ => written_outWritten, received := fun _ a h => absurd h (Nat.not_lt_zero a)
    protocol := by decide }

/-! ### Encoding -/

theorem witness_EncodeOfDecodeIsTheWord : decode 0x0400060000000000#64 = .command (.rdin 6) := by decide

theorem witness_OpcodeTableRowsAreTheCommands :
    (∃ r ∈ opcodeTable, r.matches 0x0600000A141E0102#64 = true) ∧
    decode 0x0600000A141E0102#64 = .command (.setled 10 20 30 1 2) := by decide

theorem witness_EveryWordMatchesOneRowOrIsIllegal :
    ready.fault = none ∧ (∃ r ∈ opcodeTable, r.matches 0x0500000000000000#64 = true) ∧
    ∀ r ∈ opcodeTable, r.matches 0x0500000000000001#64 = false := by decide

/-- The ops at the ends of the two reserved ranges; for each format the first and last bit of each run of zero bits. -/
theorem witness_ReservedWordsAreIllegal :
    (Cmd.op 0x00FFFFFFFFFFFFFF#64) = 0 ∧ 0x07 ≤ (Cmd.op 0x0700000000000000#64).toNat ∧
    0x07 ≤ (Cmd.op 0xFF00000000000000#64).toNat ∧
    ([(0x0500000000000001#64, 0), (0x0580000000000000#64, 55)] : List (Cmd × Nat)).all
      (fun p => p.1.op == 0x05 && p.1.getLsbD p.2 && p.2 < 56) = true ∧
    ([(0x0200000000000001#64, 0), (0x0400008000000000#64, 39), (0x0401000000000000#64, 48), (0x0280000000000000#64, 55)] :
      List (Cmd × Nat)).all
      (fun p => (p.1.op == 0x02 || p.1.op == 0x04) && p.1.getLsbD p.2 && ((48 ≤ p.2 && p.2 < 56) || p.2 < 40)) = true ∧
    ([(0x0100000000000100#64, 8), (0x0300008000000000#64, 39), (0x0101000000000000#64, 48), (0x0380000000000000#64, 55)] :
      List (Cmd × Nat)).all
      (fun p => (p.1.op == 0x01 || p.1.op == 0x03) && p.1.getLsbD p.2 &&
        ((48 ≤ p.2 && p.2 < 56) || (8 ≤ p.2 && p.2 < 40))) = true ∧
    ([(0x0600010000000000#64, 40), (0x0680000000000000#64, 55)] : List (Cmd × Nat)).all
      (fun p => p.1.op == 0x06 && p.1.getLsbD p.2 && 40 ≤ p.2 && p.2 < 56) = true ∧
    decode 0#64 = .illegal (.reservedOp 0) ∧ ready.fault = none := by decide

/-- The bound itself, for each operand place. -/
theorem witness_AssemblerRejectsWideOperands :
    (256 ≤ 256 ∨ 256 ≤ 0) ∧ (256 ≤ 0 ∨ 256 ≤ 256) ∧
    [0, 1, 2, 3, 4].all (fun k => ((List.replicate 5 0).set k 256).any fun x => 256 ≤ x) = true := by decide

/-! ### Steps -/

/-- A command arrives at an idle block, and a second issuer's at a waiting one. -/
theorem witness_StepRunsTheArrivingCommand :
    decode 0x0400060000000000#64 = .command (.rdin 6) ∧
    (ready.issueNext 0x0400060000000000#64).fault = none ∧
    (ready.issueNext 0x0400060000000000#64).issued = [⟨.owner, 0x0400060000000000#64⟩] ∧
    (ready.issueNext 0x0400060000000000#64).phase = .idle ∧
    (waiting.issueNext 0x0400060000000000#64).fault = none ∧
    (waiting.issueNext 0x0400060000000000#64).issued = [⟨.other, 0x0400060000000000#64⟩] := by decide

/-- The owner's next word waits behind a transaction. -/
theorem witness_OwnerIsBlockedDuringATransaction :
    let s := waiting.withIssued [⟨.owner, 0x0400060000000000#64⟩]
    s.fault = none ∧ s.phase = .transacting ∧ s.NoOverlap :=
  ⟨rfl, rfl, fun a h => by cases h; rfl⟩

theorem witness_IdleBlockWaitsForACommand : ready.Ready ∧ ready.issued = [] := ⟨ready_is_ready, rfl⟩

/-- A command that faults, an illegal word, a faulted block, and arguments that build. -/
theorem witness_FaultIsPreciseAndSticky :
    (∃ t, exec (.rdin 96) ready = .next t ∧ t.fault ≠ none) ∧
    (decode 0#64 = .illegal (.reservedOp 0) ∧ ready.fault = none) ∧
    halted.fault = some ⟨.indexOutOfRange, 0x0400600000000000#64, some 96⟩ ∧ ∃ s, State.build exArgs = .next s :=
  ⟨⟨_, rfl, by decide⟩, by decide, by decide, ⟨State.resetWith Config.ex, by simp only [State.build, test_build_example]⟩⟩

theorem witness_CommandDuringTransactionRaisesOverlap : waiting.fault = none ∧ waiting.phase = .transacting := by decide

/-- Every clause: halted, illegal, in a transaction, indices 39, 96 and 255, and a lowest unwritten byte at 0 and at 38. -/
theorem witness_FaultPriorityOrder :
    halted.fault = some ⟨.indexOutOfRange, 0x0400600000000000#64, some 96⟩ ∧
    (ready.fault = none ∧ decode 0x0101C80000000000#64 = .illegal (.reservedBits 1)) ∧
    (waiting.fault = none ∧ waiting.phase = .transacting) ∧
    (39 ≤ (39#8).toNat ∧ 39 ≤ (255#8).toNat ∧ 96 ≤ (96#8).toNat ∧ 96 ≤ (255#8).toNat) ∧
    (ready.fault = none ∧ ready.phase = .idle ∧ ready.out.read 0 = none) ∧
    (allBut38.fault = none ∧ allBut38.phase = .idle ∧ allBut38.out.read 38 = none ∧
      ∀ j, j < 38 → allBut38.out.read j ≠ none) := by decide

/-- Each cause of the table: an illegal word, the first and last index outside each space, an unwritten byte at the ends of
each space, a lowest unwritten byte of OUT at 0 and at 38, a transaction. -/
theorem witness_FaultRecordsFollowTheTable :
    (decode 0#64 = .illegal (.reservedOp 0) ∧ ready.fault = none) ∧
    (ready.phase = .idle ∧ Space.out.size ≤ (39#8).toNat ∧ Space.inb.size ≤ (96#8).toNat ∧
      Space.inb.size ≤ (255#8).toNat) ∧
    ((38#8).toNat < Space.out.size ∧ (ready.mem .out).read (38#8).toNat = none ∧ (95#8).toNat < Space.inb.size ∧
      (ready.mem .inb).read (95#8).toNat = none) ∧
    (ready.out.read 0 = none ∧ allBut38.fault = none ∧ allBut38.phase = .idle ∧ allBut38.out.read 38 = none ∧
      ∀ j, j < 38 → allBut38.out.read j ≠ none) ∧
    (waiting.fault = none ∧ waiting.phase = .transacting) := by decide

/-- A command that faults, for each of the four causes. -/
theorem witness_CommandsFaultOnlyForTheirCauses :
    (∃ t, exec (.rdin 6) waiting = .next t ∧ t.fault = some ⟨.overlap, 0x0400060000000000#64, none⟩) ∧
    (∃ t, exec (.rdin 96) ready = .next t ∧ t.fault = some ⟨.indexOutOfRange, 0x0400600000000000#64, some 96⟩) ∧
    (∃ t, exec (.rdin 6) ready = .next t ∧ t.fault = some ⟨.unwrittenRead, 0x0400060000000000#64, some 6⟩) ∧
    ∃ t, exec .exch ready = .next t ∧ t.fault = some ⟨.unwrittenRead, 0x0500000000000000#64, some 0⟩ :=
  ⟨⟨_, rfl, by decide⟩, ⟨_, rfl, by decide⟩, ⟨_, rfl, by decide⟩, ⟨_, rfl, by decide⟩⟩

/-! ### Byte commands -/

theorem witness_WroutStoresItsByte : ready.Ready ∧ (0#8).toNat < outSize ∧ (38#8).toNat < outSize :=
  ⟨ready_is_ready, by decide, by decide⟩

theorem witness_WrinStoresItsByte : ready.Ready ∧ (0#8).toNat < inSize ∧ (95#8).toNat < inSize :=
  ⟨ready_is_ready, by decide, by decide⟩

theorem witness_RdoutReadsItsByte :
    written.Ready ∧ (38#8).toNat < outSize ∧ written.out.read (38#8).toNat = some 0 ∧
    written.out.read (0#8).toNat = some 0 := ⟨written_is_ready, by decide⟩

theorem witness_RdinReadsItsByte :
    bothWritten.Ready ∧ (95#8).toNat < inSize ∧ bothWritten.inb.read (95#8).toNat = some 4#8 ∧
    bothWritten.inb.read (0#8).toNat = some 5#8 := ⟨⟨rfl, rfl⟩, by decide⟩

theorem witness_IndexOutsideItsSpaceFaults :
    ready.Ready ∧ 39 ≤ (39#8).toNat ∧ 39 ≤ (255#8).toNat ∧ 96 ≤ (96#8).toNat ∧ 96 ≤ (255#8).toNat :=
  ⟨ready_is_ready, by decide⟩

theorem witness_UnwrittenByteFaults :
    ready.Ready ∧ allBut38.Ready ∧ ready.out.read (0#8).toNat = none ∧ ready.out.read (38#8).toNat = none ∧
    ready.inb.read (0#8).toNat = none ∧ ready.inb.read (95#8).toNat = none ∧ allBut38.out.read 38 = none ∧
    ∀ j, j < 38 → allBut38.out.read j ≠ none := ⟨ready_is_ready, ⟨rfl, rfl⟩, by decide⟩

/-- Each byte command, where it has its effect and where it raises. -/
theorem witness_ByteCommandsTouchNothingElse :
    (∃ t, exec (.wrout 38 1) ready = .next t) ∧ (∃ t, exec (.wrout 39 1) ready = .next t ∧ t.fault ≠ none) ∧
    (∃ t, exec (.wrin 95 1) ready = .next t) ∧ (∃ t, exec (.wrin 96 1) ready = .next t ∧ t.fault ≠ none) ∧
    (∃ t, exec (.rdout 0) written = .next t) ∧ (∃ t, exec (.rdout 0) ready = .next t ∧ t.fault ≠ none) ∧
    (∃ t, exec (.rdin 95) bothWritten = .next t) ∧ ∃ t, exec (.rdin 95) ready = .next t ∧ t.fault ≠ none :=
  ⟨⟨_, rfl⟩, ⟨_, rfl, by decide⟩, ⟨_, rfl⟩, ⟨_, rfl, by decide⟩, ⟨_, rfl⟩, ⟨_, rfl, by decide⟩, ⟨_, rfl⟩,
    ⟨_, rfl, by decide⟩⟩

theorem witness_WriteThenReadReturnsTheByte :
    ready.Ready ∧ (0#8).toNat < Space.out.size ∧ (38#8).toNat < Space.out.size ∧ (95#8).toNat < Space.inb.size :=
  ⟨ready_is_ready, by decide, by decide, by decide⟩

/-! ### SETLED and EXCH -/

theorem witness_SetledWritesItsFiveBytes : ready.Ready ∧ ready.cfg.wf = true := ⟨ready_is_ready, by decide⟩

/-- EX has override flags. -/
theorem witness_SetledLeavesOverrideFlags :
    ready.Ready ∧ ready.cfg.wf = true ∧ ∃ f ∈ ready.cfg.fieldMap.fields, f.shape = .overrideFlag 0 0 :=
  ⟨ready_is_ready, by decide, ⟨"LED override", .overrideFlag 0 0⟩, by decide, rfl⟩

theorem witness_ExchCompletesWhenTheBusAnswers :
    (answering 96 [.stall]).Ready ∧ (answering 96 [.stall]).cfg.wf = true ∧ (answering 96 [.stall]).OutWritten ∧
    (List.replicate 96 0x10#8).length = inSize ∧
    (answering 96 [.stall]).bus = (List.replicate 96 0x10#8).map .byte ++ [.stall] :=
  ⟨answering_is_ready _ _, by decide, answering_outWritten _ _, by decide, rfl⟩

/-- A silent bus after 0 and after 95 bytes, and a stall after 0 and after 95 bytes. -/
theorem witness_ExchWaitsAtABeatTheBusHolds (k : Nat) (h : k = 0 ∨ k = 95) (q : List BusReply) :
    (∀ rest, (answering k rest).Ready ∧ (answering k rest).OutWritten) ∧ (List.replicate k 0x10#8).length < inSize ∧
    (answering k []).bus = (List.replicate k 0x10#8).map .byte ∧
    (answering k (.stall :: q)).bus = (List.replicate k 0x10#8).map .byte ++ .stall :: q :=
  ⟨fun rest => ⟨answering_is_ready k rest, answering_outWritten k rest⟩, by rcases h with rfl | rfl <;> decide,
    List.append_nil _, rfl⟩

theorem witness_WaitingOnASilentBusIsStuck :
    waiting.Inv ∧ waiting.fault = none ∧ waiting.phase = .transacting ∧ waiting.NoOverlap ∧ waiting.bus = [] :=
  ⟨waiting_inv, rfl, rfl, waiting_noOverlap, rfl⟩

/-- A stall after 0 and one after 95 bytes. -/
theorem witness_AStallOnlyDelaysAnExchange (k : Nat) (h : k = 0 ∨ k = 95) :
    written.Ready ∧ written.OutWritten ∧ (List.replicate k 0x10#8).length < inSize ∧
    ∃ t, exec .exch (written.withBus ((List.replicate k 0x10#8).map .byte ++ .stall :: [.byte 2#8])) = .next t :=
  ⟨written_is_ready, written_outWritten, by rcases h with rfl | rfl <;> decide,
    ⟨_, execExch_written (answering_is_ready k _) (answering_outWritten k _)⟩⟩

theorem witness_FairBusCompletesTheTransaction :
    fairWaiting.Inv ∧ fairWaiting.fault = none ∧ fairWaiting.phase = .transacting ∧ fairWaiting.NoOverlap ∧
    inSize - fairWaiting.beat ≤ (fairWaiting.bus.filter fun r => r != .stall).length :=
  ⟨{ waiting_inv with }, rfl, rfl, waiting_noOverlap, by decide⟩

/-- A block that differs from `answering` in OUT, IN, RESP and the log, with the same answers of the bus. -/
def answeringOther (k : Nat) (rest : List BusReply) : State :=
  { answering k rest with
    out := written.out.write 3 0x77#8, inb := [(50, 0x77#8)], resp := some 1#8, busLog := [.assert 0, .deassert 0] }

theorem answeringOther_outWritten (k : Nat) (rest : List BusReply) : (answeringOther k rest).OutWritten := by
  have h : ∀ a, a < outSize → (written.out.write 3 0x77#8).read a ≠ none := by decide
  exact h

theorem witness_ReceivedBytesAloneDecideIn (k : Nat) (q : List BusReply) (h : k = inSize) :
    (answering k q).Ready ∧ (answeringOther k q).Ready ∧ (answering k q).OutWritten ∧ (answeringOther k q).OutWritten ∧
    (answering k q).inb.wf inSize = true ∧ (answeringOther k q).inb.wf inSize = true ∧
    (answering k q).cfg.dpadPos = (answeringOther k q).cfg.dpadPos ∧ (List.replicate k 0x10#8).length = inSize ∧
    (answering k q).bus = (List.replicate k 0x10#8).map .byte ++ q ∧
    (answeringOther k q).bus = (List.replicate k 0x10#8).map .byte ++ q ∧
    (∃ t, exec .exch (answering k q) = .next t) ∧ ∃ t, exec .exch (answeringOther k q) = .next t :=
  ⟨⟨rfl, rfl⟩, ⟨rfl, rfl⟩, answering_outWritten k q, answeringOther_outWritten k q, rfl, rfl, rfl,
    by rw [List.length_replicate, h], rfl, rfl, ⟨_, execExch_written ⟨rfl, rfl⟩ (answering_outWritten k q)⟩,
    ⟨_, execExch_written ⟨rfl, rfl⟩ (answeringOther_outWritten k q)⟩⟩

theorem witness_ExchLeavesOutAndResp : ∃ t, exec .exch written = .next t :=
  ⟨_, execExch_written written_is_ready written_outWritten⟩

/-- A log with beats on either side of 39, and a step from it. -/
theorem witness_PaddingIsAlwaysTheSentinel :
    Padded { ready with busLog := [.beat 38 0x00#8 1#8, .beat 39 0xCD#8 2#8, .beat 95 0xCD#8 3#8] }.busLog ∧
    ∃ t, step { ready with busLog := [.beat 38 0x00#8 1#8, .beat 39 0xCD#8 2#8, .beat 95 0xCD#8 3#8] } = .next t := by
  refine ⟨fun i mosi miso h hi => ?_, _, rfl⟩
  simp only [List.mem_cons, BusEvent.beat.injEq, List.not_mem_nil, or_false] at h
  rcases h with ⟨rfl, -, -⟩ | ⟨-, rfl, -⟩ | ⟨-, rfl, -⟩
  · exact absurd hi (by decide)
  · rfl
  · rfl

/-! ### The d-pad decoder and field views -/

/-- The bytes of V-D17: four written, distinct positions in three bytes. -/
theorem witness_DpadDecodeRewritesFourBits :
    spread.positions.Nodup ∧
    [spread.up, spread.right, spread.down, spread.left].map
      (Memory.readBit [(2, 0x21#8), (7, 0x80#8), (9, 0x00#8)]) = [some true, some true, some true, some false] := by decide

theorem witness_SetbitChangesOneBit :
    bothWritten.Ready ∧ (38#8).toNat < Space.out.size ∧ (bothWritten.mem .out).read (38#8).toNat = some 0#8 ∧
    (95#8).toNat < Space.inb.size ∧ (bothWritten.mem .inb).read (95#8).toNat = some 4#8 := ⟨⟨rfl, rfl⟩, by decide⟩

theorem witness_SetbitOnAnUnwrittenByteFaults :
    ready.Ready ∧ (38#8).toNat < Space.out.size ∧ (ready.mem .out).read (38#8).toNat = none ∧
    (95#8).toNat < Space.inb.size ∧ (ready.mem .inb).read (95#8).toNat = none := ⟨ready_is_ready, by decide⟩

/-- The last offset of a pulse width in each space, and a state of each order. -/
theorem witness_SetpwThenGetpwReturnsTheValue :
    (37#8).toNat + 1 < Space.out.size ∧ (94#8).toNat + 1 < Space.inb.size ∧
    (ready.Ready ∧ ready.cfg.pwOrder = .little) ∧
    ({ ready with cfg := { Config.ex with pwOrder := .big } } : State).Ready :=
  ⟨by decide, by decide, ⟨ready_is_ready, rfl⟩, rfl, rfl⟩

/-- A field of each kind that has a set view, at the end of its space, set without a fault. -/
theorem witness_FieldSetThenGetReturnsTheValue :
    bothWritten.Ready ∧
    [(FieldShape.overrideFlag 38 7, FieldValue.bit true), (.flag .inb 95 0, .bit true), (.byte8 .out 38, .byte 9),
      (.pulseWidth .inb 94, .pulse 1500)].all
      (fun p => p.1.inRange && nextHas (writeField p.1 p.2 bothWritten) (fun t => t.fault.isNone)) = true :=
  ⟨⟨rfl, rfl⟩, by decide⟩

theorem witness_GetimuIsBigEndianAndSigned :
    bothWritten.Ready ∧ (94#8).toNat + 1 < inSize ∧ bothWritten.inb.read (94#8).toNat = some 0x80#8 ∧
    bothWritten.inb.read ((94#8).toNat + 1) = some 4#8 := ⟨⟨rfl, rfl⟩, by decide⟩

/-- The last offset of a finger record, and a state of each layout. -/
theorem witness_GettouchSplitsByLayout :
    (bothWritten.Ready ∧ bothWritten.cfg.touchLayout = .lsbAlloc) ∧
    ({ bothWritten with cfg := { Config.ex with touchLayout := .msbAlloc } } : State).Ready ∧ (92#8).toNat + 3 < inSize ∧
    [0, 1, 2, 3].map (fun k => bothWritten.inb.read ((92#8).toNat + k)) = [some 1#8, some 2#8, some 0x80#8, some 4#8] :=
  ⟨⟨⟨rfl, rfl⟩, rfl⟩, ⟨rfl, rfl⟩, by decide⟩

/-! ### The whole machine -/

theorem witness_OnlyNamedCommandsWriteTheBuffers :
    (∃ t, exec (.wrout 0 1) ready = .next t ∧ t.out ≠ ready.out) ∧
    (∃ t, exec (.wrin 0 1) ready = .next t ∧ t.inb ≠ ready.inb) ∧
    (ready.issued = [] ∧ ready.phase = .idle ∧ ∃ t, step ready = .next t) ∧
    waiting.issued = [] ∧ ∃ t, step waiting = .next t :=
  ⟨⟨_, rfl, by decide⟩, ⟨_, rfl, by decide⟩, ⟨rfl, rfl, _, rfl⟩, rfl, _, rfl⟩

theorem witness_OnlyReadsChangeResp :
    (∃ t, exec (.rdout 0) written = .next t ∧ t.resp ≠ written.resp) ∧ ready.issued = [] ∧ ∃ t, step ready = .next t :=
  ⟨⟨_, rfl, by decide⟩, rfl, _, rfl⟩

theorem witness_BusLogOnlyGrowsAndOnlyByExch :
    (∃ t, step waiting = .next t) ∧ ∃ t, exec .exch written = .next t ∧ t.busLog ≠ written.busLog :=
  ⟨⟨_, rfl⟩, _, execExch_written written_is_ready written_outWritten, by decide +kernel⟩

theorem witness_ConfigurationNeverChanges : ∃ t, step waiting = .next t := ⟨_, rfl⟩

/-- In each phase. -/
theorem witness_PhaseTransactingExactlyWhileSelAsserted :
    ((ready.phase = .transacting ↔ ready.sel = .asserted) ∧ ∃ t, step ready = .next t) ∧
    (waiting.phase = .transacting ↔ waiting.sel = .asserted) ∧ ∃ t, step waiting = .next t :=
  ⟨⟨by decide, _, rfl⟩, by decide, _, rfl⟩

theorem witness_BuffersKeepTheirForm :
    bothWritten.out.wf outSize = true ∧ bothWritten.inb.wf inSize = true ∧ ∃ t, step bothWritten = .next t :=
  ⟨by decide, by decide, _, rfl⟩

theorem witness_EveryStepKeepsTheInvariant : waiting.Inv ∧ ∃ t, step waiting = .next t := ⟨waiting_inv, _, rfl⟩

theorem witness_ResetMeetsTheInvariant : Config.ex.wf = true := by decide

/-! ### Configuration and instances -/

theorem exArgs_legal : LegalArgs exArgs :=
  { leadLen := by decide, dpadInRange := by unfold NatPos; decide, dpadDistinct := by decide
    dpadInButtons := by decide, ledInRange := by decide, ledDistinct := by decide
    ledNoFlag := by
      intro f hf b n h
      fin_cases hf <;> cases h <;> decide
    fieldsInRange := by decide, regionsInRange := by decide, regionsRise := by decide
    regionSizes := by decide, leadFirst := by decide, fieldsDisjoint := by decide }

/-- Arguments that pass the check, and arguments that fail its first clause. -/
theorem witness_BuildRefusesIllegalArguments : LegalArgs exArgs ∧ ¬LegalArgs { exArgs with leadLen := 96 } :=
  ⟨exArgs_legal, fun h => absurd h.leadLen (by decide)⟩

/-- Two instances, one of which is in a transaction, and a step of the fleet. -/
theorem witness_InstancesShareNoState :
    (∃ g, Fleet.step ⟨[waiting, ready]⟩ 1 = .next g) ∧ (Fleet.mk [waiting, ready]).OneTransaction := by
  refine ⟨⟨_, rfl⟩, fun i j s t hs ht ps pt => ?_⟩
  have one : ∀ (k : Nat) (u : State), (Fleet.mk [waiting, ready]).blocks[k]? = some u → u.phase = .transacting → k = 0 := by
    intro k u hu pu
    match k, hu with
    | 0, _ => rfl
    | 1, hu => cases hu; cases pu
    | k + 2, hu => simp at hu
  rw [one i s hs ps, one j t ht pt]

/-- EX's arguments with another select line. -/
def exArgs1 : BuildArgs := { exArgs with selId := 1 }

theorem exArgs1_legal : LegalArgs exArgs1 := { exArgs_legal with }

/-- Distinct select lines, equal ones, and illegal arguments. -/
theorem witness_DuplicateSelectLinesAreRefused :
    ((∀ a ∈ [exArgs, exArgs1], LegalArgs a) ∧ ([exArgs, exArgs1].map fun a => a.selId).Nodup) ∧
    ((∀ a ∈ [exArgs, exArgs], LegalArgs a) ∧ ¬([exArgs, exArgs].map fun a => a.selId).Nodup) ∧
    (∃ a ∈ [exArgs, { exArgs with leadLen := 96 }], ¬LegalArgs a) ∧
    (match Fleet.build [exArgs, exArgs1] with | .next f => f.blocks.length == 2 | _ => false) = true := by
  refine ⟨⟨?_, by decide⟩, ⟨?_, by decide⟩, ⟨_, .tail _ (.head _), fun h => absurd h.leadLen (by decide)⟩, by decide⟩
  · simpa using ⟨exArgs_legal, exArgs1_legal⟩
  · simpa using exArgs_legal

/-- Two instances with one SEL_ID are refused. -/
theorem test_duplicate_select_line :
    (match Fleet.build [exArgs, exArgs] with | .refused r => r == .duplicateSelId | _ => false) = true := by decide

end Sys2Proof.Tests
end

section
/-! PROOFS. The statements of the family spec/10_state.md: what every step keeps, what each command may change, and what a
completed EXCH leaves. First the layer they share: the arriving word, one induction over a run of beats, and one principle
by which a property that each part of a step keeps is kept by every step. -/

namespace Sys2Proof.Machine

/-! ### The arriving word -/

/-- The head of the queue arrives unless it is the owner's and a transaction is in progress. -/
theorem State.nextArrival_eq_some {s : State} {a : Arrival} {rest : List Arrival} (hq : s.issued = a :: rest)
    (hfree : s.phase = .idle ∨ a.issuer = .other) : s.nextArrival = some (a.word, s.withIssued rest) := by
  unfold State.nextArrival
  rw [hq]
  rcases hfree with h | h
  · simp [h]
  · cases hp : s.phase <;> simp [h]

/-- A legal word that arrives at a block without a fault is what the step runs. -/
theorem step_eq_exec {s u : State} {w : Cmd} {i : Instr} (hf : s.fault = none) (hn : s.nextArrival = some (w, u))
    (hd : decode w = .command i) : step s = exec i u := by
  simp [step, fetch, hf, hn, hd]

/-- With an empty queue, a step is the engine going on or an idle block waiting. -/
theorem step_eq_proceed_of_no_command {s t : State} (hq : s.issued = []) (h : step s = .next t) : t = s.proceed := by
  obtain ⟨-, ⟨_, _, hne, -⟩ | ⟨_, _, _, _, hne, -⟩ | ht⟩ := step_cases h
  · exact absurd hq hne
  · exact absurd hq hne
  · exact ht

/-- Settles O8: the word at the head of the queue is the next arrival, and the step runs its command. -/
theorem stepRunsTheArrivingCommand : Obligations.StepRunsTheArrivingCommand := by
  intro s a rest i hf hq hfree hd
  exact step_eq_exec hf (State.nextArrival_eq_some hq hfree) hd

/-! ### What each command and the engine may change -/

/-- Each of OUT, IN, RESP and BUSLOG is changed by its own commands only. -/
theorem exec_changes_only {i : Instr} {s t : State} (h : exec i s = .next t) :
    (t.out ≠ s.out → i.mnemonic = "WROUT" ∨ i.mnemonic = "SETLED") ∧
    (t.inb ≠ s.inb → i.mnemonic = "WRIN" ∨ i.mnemonic = "EXCH") ∧
    (t.resp ≠ s.resp → i.mnemonic = "RDOUT" ∨ i.mnemonic = "RDIN") ∧
    (t.busLog ≠ s.busLog → i = .exch) := by
  obtain ⟨c, x, rfl⟩ | ⟨-, hwrout | hwrin | hrdout | hrdin | hexch | hsetled⟩ := exec_cases h
  · simp
  · obtain ⟨idx, d, rfl, -, rfl⟩ := hwrout
    simp [Instr.mnemonic]
  · obtain ⟨idx, d, rfl, -, rfl⟩ := hwrin
    simp [Instr.mnemonic]
  · obtain ⟨idx, b, rfl, rfl⟩ := hrdout
    simp [Instr.mnemonic]
  · obtain ⟨idx, b, rfl, rfl⟩ := hrdin
    simp [Instr.mnemonic]
  · obtain ⟨rfl, -, rfl⟩ := hexch
    simp [Instr.mnemonic, runBeats_frame]
  · obtain ⟨r, g, b, on, off, rfl, rfl⟩ := hsetled
    simp [Instr.mnemonic]

/-- The engine going on, or an idle block waiting, leaves OUT and RESP as they are. -/
theorem State.proceed_frame (s : State) : s.proceed.out = s.out ∧ s.proceed.resp = s.resp := by
  obtain ⟨-, h⟩ | ⟨-, h⟩ := proceed_cases s
  · rw [h]; exact ⟨rfl, rfl⟩
  · obtain ⟨hout, hresp, -⟩ := runBeats_frame (inSize - s.beat) s
    rw [h]; exact ⟨hout, hresp⟩

/-- Settles O44, from what each command changes and what a step without a command does. -/
theorem onlyNamedCommandsWriteTheBuffers : Obligations.OnlyNamedCommandsWriteTheBuffers := by
  refine ⟨fun i s t h => ?_, fun s t hq h => ?_⟩
  · obtain ⟨hout, hinb, -, -⟩ := exec_changes_only h
    exact ⟨hout, hinb⟩
  · rw [step_eq_proceed_of_no_command hq h]
    exact ⟨s.proceed_frame.1, fun hidle => by simp [State.proceed, hidle]⟩

/-- Settles O45, from what each command changes and what a step without a command does. -/
theorem onlyReadsChangeResp : Obligations.OnlyReadsChangeResp := by
  refine ⟨fun i s t h => ?_, fun s t hq h => ?_⟩
  · obtain ⟨-, -, hresp, -⟩ := exec_changes_only h
    exact hresp
  · rw [step_eq_proceed_of_no_command hq h]
    exact s.proceed_frame.2

/-! ### What every part of a step keeps, every step keeps -/

/-- The property survives each thing a step can do: taking a word from the queue, a fault, the writes of the commands, the
start of a transaction, and the engine going on. -/
structure KeptByParts (P : State → Prop) : Prop where
  arrival : ∀ s q, P s → P (s.withIssued q)
  raise : ∀ s c w x, P s → P (s.raise c w x)
  putOut : ∀ s a v, a < outSize → P s → P (s.putOut a v)
  putIn : ∀ s a v, a < inSize → P s → P (s.putIn a v)
  putResp : ∀ s v, P s → P (s.putResp v)
  start : ∀ s, s.Ready → s.OutWritten → P s → P s.beginTransaction
  engine : ∀ s, s.phase = .transacting → P s → P s.engine

theorem KeptByParts.exec {P : State → Prop} (k : KeptByParts P) {i : Instr} {s t : State} (hs : P s)
    (h : exec i s = .next t) : P t := by
  obtain ⟨c, x, rfl⟩ | ⟨hr, hwrout | hwrin | hrdout | hrdin | hexch | hsetled⟩ := exec_cases h
  · exact k.raise _ _ _ _ hs
  · obtain ⟨idx, d, -, hi, rfl⟩ := hwrout
    exact k.putOut _ _ _ hi hs
  · obtain ⟨idx, d, -, hi, rfl⟩ := hwrin
    exact k.putIn _ _ _ hi hs
  · obtain ⟨idx, b, -, rfl⟩ := hrdout
    exact k.putResp _ _ hs
  · obtain ⟨idx, b, -, rfl⟩ := hrdin
    exact k.putResp _ _ hs
  · obtain ⟨-, hw, rfl⟩ := hexch
    exact k.engine s.beginTransaction rfl (k.start s hr hw hs)
  · obtain ⟨r, g, b, on, off, -, rfl⟩ := hsetled
    have put (u : State) (a : Fin outSize) (v : Byte) (hu : P u) : P (u.putOut a.val v) := k.putOut u a.val v a.isLt hu
    exact put _ _ _ (put _ _ _ (put _ _ _ (put _ _ _ (put _ _ _ hs))))

theorem KeptByParts.step {P : State → Prop} (k : KeptByParts P) {s t : State} (hs : P s) (h : step s = .next t) :
    P t := by
  obtain ⟨-, ⟨i, rest, -, hx⟩ | ⟨rest, c, w, x, -, rfl⟩ | rfl⟩ := step_cases h
  · exact k.exec (k.arrival s rest hs) hx
  · exact k.raise _ _ _ _ (k.arrival s rest hs)
  · obtain ⟨-, h⟩ | ⟨hp, h⟩ := proceed_cases s
    · rwa [h]
    · rw [h]; exact k.engine s hp hs

/-- Nothing a step does touches the configuration. -/
theorem keptByParts_cfg (c : Config) : KeptByParts fun u => u.cfg = c where
  arrival _ _ h := h
  raise _ _ _ _ h := h
  putOut _ _ _ _ h := h
  putIn _ _ _ _ h := h
  putResp _ _ h := h
  start _ _ _ h := h
  engine s _ h := by
    obtain ⟨-, -, hcfg, -⟩ := runBeats_frame (inSize - s.beat) s
    exact hcfg.trans h

/-- Settles O47: the configuration survives every part of a step. -/
theorem configurationNeverChanges : Obligations.ConfigurationNeverChanges :=
  fun s _ h => (keptByParts_cfg s.cfg).step rfl h

/-- A log's events stay in place: only the start of a transaction and the engine touch BUSLOG, and they add to its end. -/
theorem keptByParts_busLog (log : List BusEvent) : KeptByParts fun u => log <+: u.busLog where
  arrival _ _ h := h
  raise _ _ _ _ h := h
  putOut _ _ _ _ h := h
  putIn _ _ _ _ h := h
  putResp _ _ h := h
  start _ _ _ h := h.trans (List.prefix_append _ _)
  engine s _ h := by
    obtain ⟨events, he⟩ := runBeats_busLog (inSize - s.beat) s
    exact h.trans ⟨events, he.symm⟩

/-- Settles O46: each part of a step keeps the old log as the beginning of the new one, and among the commands only EXCH
changes it. -/
theorem busLogOnlyGrowsAndOnlyByExch : Obligations.BusLogOnlyGrowsAndOnlyByExch := by
  refine ⟨fun s t h => ?_, fun i s t h => ?_⟩
  · obtain ⟨events, he⟩ := (keptByParts_busLog s.busLog).step (List.prefix_refl _) h
    exact ⟨events, he.symm⟩
  · obtain ⟨-, -, -, hlog⟩ := exec_changes_only h
    exact hlog

/-- PHASE and SEL change together: at the start of a transaction and at its end. -/
theorem keptByParts_phase_sel : KeptByParts fun s => s.phase = .transacting ↔ s.sel = .asserted where
  arrival _ _ h := h
  raise _ _ _ _ h := h
  putOut _ _ _ _ h := h
  putIn _ _ _ _ h := h
  putResp _ _ h := h
  start _ _ _ _ := by simp
  engine s _ h :=
    runBeats_keeps (P := fun s => s.phase = .transacting ↔ s.sel = .asserted) (fun _ _ h => h) (fun _ _ _ _ h => h)
      (fun _ _ _ _ h => h) (fun _ _ => by simp) _ s h

/-- Settles O48: the agreement of PHASE and SEL survives every part of a step. -/
theorem phaseTransactingExactlyWhileSelAsserted : Obligations.PhaseTransactingExactlyWhileSelAsserted :=
  fun _ _ hs h => keptByParts_phase_sel.step hs h

/-! ### A run of beats, with the number of beats left -/

/-- Induction over a run of beats: `P n` holds inside the run with `n` beats left, and `Q` wherever the run stops. -/
theorem runBeats_leads {P : Nat → State → Prop} {Q : State → Prop} (hbus : ∀ n s q, P n s → P n (s.withBus q))
    (hbeat : ∀ n s mosi miso, P (n + 1) s → P n (s.completeBeat mosi miso)) (hwait : ∀ n s, P (n + 1) s → Q s)
    (hraise : ∀ n s, s.mosi = none → P (n + 1) s → Q (s.raise .unwrittenRead (encode .exch) (some s.beat)))
    (hend : ∀ s, P 0 s → Q s.endTransaction.decodeDpad) (n : Nat) (s : State) (h : P n s) : Q (runBeats n s) := by
  induction n generalizing s with
  | zero => exact hend s h
  | succ n ih =>
    simp only [runBeats]
    split
    · exact hraise n s ‹_› h
    · split
      · exact hwait n s h
      · exact hwait n _ (hbus _ _ _ h)
      · exact ih _ (hbeat n _ _ _ (hbus _ _ _ h))

/-! ### The form of the buffers -/

/-- Both buffers are canonical, OUT below 39 and IN below 96. -/
def State.BuffersWf (s : State) : Prop := s.out.wf outSize = true ∧ s.inb.wf inSize = true

/-- A beat stores below 96, since the engine runs no more beats than are left. -/
theorem State.BuffersWf.engine {s : State} (h : s.BuffersWf) : s.engine.BuffersWf := by
  refine runBeats_leads (P := fun n u => n ≤ inSize - u.beat ∧ u.BuffersWf) (Q := State.BuffersWf) (fun _ _ _ h => h) ?_
    (fun _ _ h => h.2) (fun _ _ _ h => h.2) ?_ _ s ⟨le_rfl, h⟩
  · rintro n u mosi miso ⟨hn, hout, hinb⟩
    have hb : u.beat < inSize := by omega
    exact ⟨by simp only [State.completeBeat_beat]; omega, hout, Memory.wf_write miso hinb hb⟩
  · rintro u ⟨-, hout, hinb⟩
    exact ⟨hout, Memory.wf_dpadDecode _ hinb⟩

theorem keptByParts_buffersWf : KeptByParts State.BuffersWf where
  arrival _ _ h := h
  raise _ _ _ _ h := h
  putOut _ _ v ha h := ⟨Memory.wf_write v h.1 ha, h.2⟩
  putIn _ _ v ha h := ⟨h.1, Memory.wf_write v h.2 ha⟩
  putResp _ _ h := h
  start _ _ _ h := h
  engine _ _ h := h.engine

/-- Settles O49: the form of the buffers survives every part of a step, a run of beats included. -/
theorem buffersKeepTheirForm : Obligations.BuffersKeepTheirForm :=
  fun _ _ hout hinb h => keptByParts_buffersWf.step ⟨hout, hinb⟩ h

/-! ### The invariant -/

/-- Reading a log up to its end and then one event more. -/
theorem busPoint_concat (selId : Int) (p : BusPoint) (log : List BusEvent) (e : BusEvent) :
    busPoint selId p (log ++ [e]) = (busPoint selId p log).bind fun q => q.next selId e := by
  induction log generalizing p with
  | nil => simp [busPoint]
  | cons d log ih =>
    simp only [List.cons_append, busPoint]
    cases p.next selId d with
    | none => rfl
    | some q => exact ih q

/-- What holds inside a run of beats with `n` beats left: the invariant of a transaction in progress, but with BEAT allowed
to stand at 96 before the transaction ends. -/
structure State.MidTransaction (s : State) (n : Nat) : Prop where
  buffers : s.BuffersWf
  cfg_wf : s.cfg.wf = true
  running : s.phase = .transacting
  selected : s.sel = .asserted
  beats_left : s.beat + n = inSize
  written : s.OutWritten
  received : ∀ a, a < s.beat → s.inb.read a ≠ none
  protocol : Machine.busPoint s.cfg.selId .between s.busLog = some (.before s.beat)

theorem State.Inv.midTransaction {s : State} (h : s.Inv) (hp : s.phase = .transacting) :
    s.MidTransaction (inSize - s.beat) where
  buffers := ⟨h.out_wf, h.inb_wf⟩
  cfg_wf := h.cfg_wf
  running := hp
  selected := h.phase_sel.mp hp
  beats_left := Nat.add_sub_of_le h.beat_le
  written := h.out_written hp
  received := h.received hp
  protocol := by simpa [State.busPoint, hp] using h.protocol

/-- While a beat is left, the engine may stop: the state meets the invariant. -/
theorem State.MidTransaction.inv {s : State} {n : Nat} (h : s.MidTransaction (n + 1)) : s.Inv where
  out_wf := h.buffers.1
  inb_wf := h.buffers.2
  cfg_wf := h.cfg_wf
  beat_le := by have := h.beats_left; omega
  phase_sel := by simp [h.running, h.selected]
  beat_lt _ := by have := h.beats_left; omega
  out_written _ := h.written
  received _ := h.received
  protocol := by simpa [State.busPoint, h.running] using h.protocol

theorem State.MidTransaction.withBus {s : State} {n : Nat} (h : s.MidTransaction n) (q : List BusReply) :
    (s.withBus q).MidTransaction n := { h with }

theorem State.MidTransaction.completeBeat {s : State} {n : Nat} (h : s.MidTransaction (n + 1)) (mosi miso : Byte) :
    (s.completeBeat mosi miso).MidTransaction n := by
  have hlt : s.beat < inSize := by have := h.beats_left; omega
  exact
    { buffers := ⟨h.buffers.1, Memory.wf_write miso h.buffers.2 hlt⟩
      cfg_wf := h.cfg_wf
      running := h.running
      selected := h.selected
      beats_left := by have := h.beats_left; simp only [State.completeBeat_beat]; omega
      written := h.written
      received := fun a ha => by
        rw [State.completeBeat_inb, Memory.read_write]
        split_ifs with hab
        · simp
        · exact h.received a (by simp only [State.completeBeat_beat] at ha; omega)
      protocol := by simp [busPoint_concat, h.protocol, BusPoint.next, hlt] }

/-- After its last beat a transaction ends in a state that meets the invariant. -/
theorem State.MidTransaction.inv_endTransaction {s : State} (h : s.MidTransaction 0) :
    s.endTransaction.decodeDpad.Inv := by
  have hbeat : s.beat = inSize := h.beats_left
  exact
    { out_wf := h.buffers.1
      inb_wf := Memory.wf_dpadDecode _ h.buffers.2
      cfg_wf := h.cfg_wf
      beat_le := hbeat.le
      phase_sel := by simp
      beat_lt := by simp
      out_written := by simp
      received := by simp
      protocol := by simp [busPoint_concat, h.protocol, BusPoint.next, hbeat, State.busPoint] }

/-- The engine cannot raise here: inside a transaction every OUT byte is written. -/
theorem State.Inv.engine {s : State} (h : s.Inv) (hp : s.phase = .transacting) : s.engine.Inv :=
  runBeats_leads (P := fun n u => u.MidTransaction n) (Q := State.Inv) (fun _ _ q h => h.withBus q)
    (fun _ _ mosi miso h => h.completeBeat mosi miso) (fun _ _ h => h.inv)
    (fun _ _ hm h => by simp [State.mosi_eq h.written] at hm) (fun _ h => h.inv_endTransaction) _ s (h.midTransaction hp)

theorem State.Inv.putOut {s : State} {a : Nat} (v : Byte) (ha : a < outSize) (h : s.Inv) : (s.putOut a v).Inv :=
  { h with
    out_wf := Memory.wf_write v h.out_wf ha
    out_written := fun hp c hc => Memory.read_write_ne_none (h.out_written hp c hc) }

theorem State.Inv.putIn {s : State} {a : Nat} (v : Byte) (ha : a < inSize) (h : s.Inv) : (s.putIn a v).Inv :=
  { h with
    inb_wf := Memory.wf_write v h.inb_wf ha
    received := fun hp c hc => Memory.read_write_ne_none (h.received hp c hc) }

theorem State.Inv.beginTransaction {s : State} (hidle : s.phase = .idle) (hw : s.OutWritten) (h : s.Inv) :
    s.beginTransaction.Inv :=
  have hlog : Machine.busPoint s.cfg.selId .between s.busLog = some .between := by
    simpa [State.busPoint, hidle] using h.protocol
  { h with
    beat_le := Nat.zero_le _
    phase_sel := by simp
    beat_lt := fun _ => by simp
    out_written := fun _ => hw
    received := fun _ a ha => absurd ha (Nat.not_lt_zero a)
    protocol := by simp [busPoint_concat, hlog, BusPoint.next, State.busPoint] }

theorem keptByParts_inv : KeptByParts State.Inv where
  arrival _ _ h := { h with }
  raise _ _ _ _ h := { h with }
  putOut _ _ v ha h := h.putOut v ha
  putIn _ _ v ha h := h.putIn v ha
  putResp _ _ h := { h with }
  start _ hr hw h := h.beginTransaction hr.2 hw
  engine _ hp h := h.engine hp

/-- Settles O50: a transaction keeps `State.MidTransaction` from beat to beat, and every other part keeps the invariant. -/
theorem everyStepKeepsTheInvariant : Obligations.EveryStepKeepsTheInvariant := fun _ _ hs h => keptByParts_inv.step hs h

/-! ### A completed EXCH -/

/-- The decode changes no byte that holds none of the four d-pad bits. -/
theorem Memory.read_dpadDecode_of_ne {m : Memory} {p : DpadPos} {a : Nat} (h : ∀ q ∈ p.positions, a ≠ q.byte.val) :
    (m.dpadDecode p).read a = m.read a := by
  simp only [DpadPos.positions, List.forall_mem_cons] at h
  obtain ⟨hu, hr, hd, hl, -⟩ := h
  unfold Memory.dpadDecode
  cases m.rawCode p with
  | none => rfl
  | some c =>
    simp only
    rw [Memory.read_writeBit_of_ne hl, Memory.read_writeBit_of_ne hd, Memory.read_writeBit_of_ne hr,
      Memory.read_writeBit_of_ne hu]

/-- Over received bytes, the decode leaves the bits EXCH promises (spec/42_dpad_decoder.md R124). -/
theorem Memory.readBit_dpadDecode {m : Memory} {p : DpadPos} {misos : List Byte} (hd : p.positions.Nodup)
    (hm : ∀ q, m.readBit q = some (receivedBit misos q)) (q : InBit) :
    (m.dpadDecode p).readBit q = some (finalBit p misos q) := by
  have hcode : m.rawCode p = some (receivedCode p misos) := by simp [Memory.rawCode, hm, receivedCode]
  simp only [DpadPos.positions, List.nodup_cons, List.mem_cons, List.not_mem_nil, or_false, not_or] at hd
  obtain ⟨⟨hur, hud, hul⟩, ⟨hrd, hrl⟩, hdl, -⟩ := hd
  simp only [Memory.dpadDecode, hcode, Memory.readBit_writeBit, hm, finalBit]
  by_cases hu : q = p.up
  · subst hu; simp [hur, hud, hul]
  by_cases hr : q = p.right
  · subst hr; simp [hrd, hrl, Ne.symm hur]
  by_cases hd : q = p.down
  · subst hd; simp [hdl, Ne.symm hud, Ne.symm hrd]
  by_cases hl : q = p.left
  · subst hl; simp [Ne.symm hul, Ne.symm hrl, Ne.symm hdl]
  · simp [hu, hr, hd, hl]

/-- The bits of IN after a run of beats that received all 96 bytes. -/
theorem readBit_storeFrom_zero (m : Memory) {misos : List Byte} (hlen : misos.length = inSize) (q : InBit) :
    (storeFrom m 0 misos).readBit q = some (receivedBit misos q) := by
  have hq := q.byte.isLt
  simp [Memory.readBit, read_storeFrom, receivedBit, hlen]

theorem State.exchEvents_length (s : State) (misos : List Byte) : (s.exchEvents misos).length = 98 := by
  simp [State.exchEvents, State.beatEvents]

/-- Settles O24: all 96 beats complete, so EXCH leaves the received bytes with the d-pad decoded. -/
theorem exchCompletesWhenTheBusAnswers : Obligations.ExchCompletesWhenTheBusAnswers := by
  intro s misos rest hr hcfg hw hlen hbus
  refine ⟨_, execExch_answered misos 0 rest hr hw hlen hbus, ?_, s.exchEvents_length misos, fun q => ?_, fun a ha => ?_⟩
  · simp [runBeats, State.endTransaction, State.decodeDpad, State.afterAnswers, State.exchEvents, hlen, hr.2]
  · exact Memory.readBit_dpadDecode (Config.dpadPos_nodup hcfg) (readBit_storeFrom_zero s.inb hlen) q
  · calc ((storeFrom s.inb 0 misos).dpadDecode s.cfg.dpadPos).read a
        = (storeFrom s.inb 0 misos).read a := Memory.read_dpadDecode_of_ne fun q _ => by have := q.byte.isLt; omega
      _ = s.inb.read a := by rw [read_storeFrom, if_neg (by omega)]

end Sys2Proof.Machine
end

section
/-! PROOFS. The statements of the family spec/30_encoding.md: the decoder and the encoder are inverse to each other, the
opcode table says the same as the decoder, an illegal word that arrives raises IllegalCommand, and the assembler checks its
operands. First the layer they share: the decoder's equations, one an op byte, and the fields of a word of each format. -/

namespace Sys2Proof

/-! ### The decoder, one equation an op byte -/

@[simp] theorem Decoded.guard_true (w : Cmd) (i : Instr) : Decoded.guard w true i = .command i := rfl

@[simp] theorem Decoded.guard_false (w : Cmd) (i : Instr) :
    Decoded.guard w false i = .illegal (.reservedBits w.op) := rfl

theorem Decoded.zeros_of_guard_eq_command {w : Cmd} {z : Bool} {i j : Instr} (h : Decoded.guard w z i = .command j) :
    z = true := by
  cases z
  · simp at h
  · rfl

theorem decode_of_op_eq_1 {w : Cmd} (h : w.op.toNat = 1) : decode w = .guard w w.zerosW (.wrout w.idx w.data) := by
  simp [decode, h]

theorem decode_of_op_eq_2 {w : Cmd} (h : w.op.toNat = 2) : decode w = .guard w w.zerosR (.rdout w.idx) := by
  simp [decode, h]

theorem decode_of_op_eq_3 {w : Cmd} (h : w.op.toNat = 3) : decode w = .guard w w.zerosW (.wrin w.idx w.data) := by
  simp [decode, h]

theorem decode_of_op_eq_4 {w : Cmd} (h : w.op.toNat = 4) : decode w = .guard w w.zerosR (.rdin w.idx) := by
  simp [decode, h]

theorem decode_of_op_eq_5 {w : Cmd} (h : w.op.toNat = 5) : decode w = .guard w w.zerosN .exch := by
  simp [decode, h]

theorem decode_of_op_eq_6 {w : Cmd} (h : w.op.toNat = 6) :
    decode w = .guard w w.zerosL
      (.setled (w.field 32 8) (w.field 24 8) (w.field 16 8) (w.field 8 8) (w.field 0 8)) := by
  simp [decode, h]

theorem decode_of_reserved_op {w : Cmd} (h : w.op.toNat = 0 ∨ 7 ≤ w.op.toNat) :
    decode w = .illegal (.reservedOp w.op) := by
  unfold decode
  split
  case h_7 => rfl
  all_goals omega

/-! ### The fields of a word of each format -/

theorem Cmd.make_field_toNat {op rest lo n : Nat} (ho : op < 256) (hr : rest < 2 ^ 56) :
    ((Cmd.make op rest).field lo n).toNat = (op * 2 ^ 56 + rest) / 2 ^ lo % 2 ^ n := by
  rw [Cmd.field_toNat, Cmd.make_toNat op rest ho hr]

theorem Cmd.make_formatN {op : Nat} (ho : op < 256) :
    (Cmd.make op 0).op.toNat = op ∧ (Cmd.make op 0).zerosN = true := by
  refine ⟨Cmd.make_op _ _ ho (by decide), ?_⟩
  rw [Cmd.zerosN, Cmd.field_beq_zero, Cmd.make_toNat _ _ ho (by decide), decide_eq_true_eq]
  omega

theorem Cmd.make_formatR {op : Nat} (ho : op < 256) (idx : BitVec 8) :
    let w := Cmd.make op (idx.toNat * 2 ^ 40)
    w.op.toNat = op ∧ w.zerosR = true ∧ w.idx = idx := by
  have hidx := idx.isLt
  have hr : idx.toNat * 2 ^ 40 < 2 ^ 56 := by omega
  refine ⟨Cmd.make_op _ _ ho hr, ?_, BitVec.eq_of_toNat_eq ?_⟩
  · simp only [Cmd.zerosR, Cmd.field_beq_zero, Cmd.make_toNat _ _ ho hr, Bool.and_eq_true, decide_eq_true_eq]
    omega
  · rw [Cmd.idx, Cmd.make_field_toNat ho hr]; omega

theorem Cmd.make_formatW {op : Nat} (ho : op < 256) (idx data : BitVec 8) :
    let w := Cmd.make op (idx.toNat * 2 ^ 40 + data.toNat)
    w.op.toNat = op ∧ w.zerosW = true ∧ w.idx = idx ∧ w.data = data := by
  have hidx := idx.isLt
  have hdata := data.isLt
  have hr : idx.toNat * 2 ^ 40 + data.toNat < 2 ^ 56 := by omega
  refine ⟨Cmd.make_op _ _ ho hr, ?_, BitVec.eq_of_toNat_eq ?_, BitVec.eq_of_toNat_eq ?_⟩
  · simp only [Cmd.zerosW, Cmd.field_beq_zero, Cmd.make_toNat _ _ ho hr, Bool.and_eq_true, decide_eq_true_eq]
    omega
  · rw [Cmd.idx, Cmd.make_field_toNat ho hr]; omega
  · rw [Cmd.data, Cmd.make_field_toNat ho hr]; omega

theorem Cmd.make_formatL {op : Nat} (ho : op < 256) (r g b on off : BitVec 8) :
    let w := Cmd.make op
      (r.toNat * 2 ^ 32 + g.toNat * 2 ^ 24 + b.toNat * 2 ^ 16 + on.toNat * 2 ^ 8 + off.toNat)
    w.op.toNat = op ∧ w.zerosL = true ∧ w.field 32 8 = r ∧ w.field 24 8 = g ∧ w.field 16 8 = b ∧ w.field 8 8 = on ∧
      w.field 0 8 = off := by
  have := r.isLt; have := g.isLt; have := b.isLt; have := on.isLt; have := off.isLt
  have hr : r.toNat * 2 ^ 32 + g.toNat * 2 ^ 24 + b.toNat * 2 ^ 16 + on.toNat * 2 ^ 8 + off.toNat < 2 ^ 56 := by omega
  refine ⟨Cmd.make_op _ _ ho hr, ?_, ?_⟩
  · rw [Cmd.zerosL, Cmd.field_beq_zero, Cmd.make_toNat _ _ ho hr, decide_eq_true_eq]; omega
  · simp only [BitVec.toNat_eq, Cmd.make_field_toNat ho hr]; omega

/-! ### The round trips -/

/-- Settles O2: the word of a command has the command's op byte, zero bits and operands, so the decoder finds them again. -/
theorem decodeOfEncodeIsTheCommand : Obligations.DecodeOfEncodeIsTheCommand := by
  intro i
  cases i with
  | wrout idx data =>
    obtain ⟨hop, hz, hidx, hdata⟩ := Cmd.make_formatW (op := 1) (by decide) idx data
    rw [encode, decode_of_op_eq_1 hop, hz, hidx, hdata, Decoded.guard_true]
  | rdout idx =>
    obtain ⟨hop, hz, hidx⟩ := Cmd.make_formatR (op := 2) (by decide) idx
    rw [encode, decode_of_op_eq_2 hop, hz, hidx, Decoded.guard_true]
  | wrin idx data =>
    obtain ⟨hop, hz, hidx, hdata⟩ := Cmd.make_formatW (op := 3) (by decide) idx data
    rw [encode, decode_of_op_eq_3 hop, hz, hidx, hdata, Decoded.guard_true]
  | rdin idx =>
    obtain ⟨hop, hz, hidx⟩ := Cmd.make_formatR (op := 4) (by decide) idx
    rw [encode, decode_of_op_eq_4 hop, hz, hidx, Decoded.guard_true]
  | exch =>
    obtain ⟨hop, hz⟩ := Cmd.make_formatN (op := 5) (by decide)
    rw [encode, decode_of_op_eq_5 hop, hz, Decoded.guard_true]
  | setled r g b on off =>
    obtain ⟨hop, hz, hr, hg, hb, hon, hoff⟩ := Cmd.make_formatL (op := 6) (by decide) r g b on off
    rw [encode, decode_of_op_eq_6 hop, hz, hr, hg, hb, hon, hoff, Decoded.guard_true]

/-- A word is the one made of its op byte and of what lies below it. -/
theorem Cmd.make_eq_of_op {w : Cmd} {op rest : Nat} (hop : w.op.toNat = op) (hrest : w.toNat % 2 ^ 56 = rest) :
    Cmd.make op rest = w := by
  have hw := w.isLt
  rw [Cmd.op, Cmd.field_toNat] at hop
  apply BitVec.eq_of_toNat_eq
  rw [Cmd.make_toNat op rest (by omega) (by omega)]
  omega

theorem Cmd.below_op_of_zerosN {w : Cmd} (hz : w.zerosN = true) : w.toNat % 2 ^ 56 = 0 := by
  simpa only [Cmd.zerosN, Cmd.field_beq_zero, pow_zero, Nat.div_one, decide_eq_true_eq] using hz

theorem Cmd.below_op_of_zerosR {w : Cmd} (hz : w.zerosR = true) : w.toNat % 2 ^ 56 = w.idx.toNat * 2 ^ 40 := by
  simp only [Cmd.zerosR, Cmd.field_beq_zero, Bool.and_eq_true, decide_eq_true_eq] at hz
  rw [Cmd.idx, Cmd.field_toNat]
  omega

theorem Cmd.below_op_of_zerosW {w : Cmd} (hz : w.zerosW = true) :
    w.toNat % 2 ^ 56 = w.idx.toNat * 2 ^ 40 + w.data.toNat := by
  simp only [Cmd.zerosW, Cmd.field_beq_zero, Bool.and_eq_true, decide_eq_true_eq] at hz
  rw [Cmd.idx, Cmd.data, Cmd.field_toNat, Cmd.field_toNat]
  omega

theorem Cmd.below_op_of_zerosL {w : Cmd} (hz : w.zerosL = true) :
    w.toNat % 2 ^ 56 = (w.field 32 8).toNat * 2 ^ 32 + (w.field 24 8).toNat * 2 ^ 24 + (w.field 16 8).toNat * 2 ^ 16 +
      (w.field 8 8).toNat * 2 ^ 8 + (w.field 0 8).toNat := by
  rw [Cmd.zerosL, Cmd.field_beq_zero, decide_eq_true_eq] at hz
  simp only [Cmd.field_toNat]
  omega

/-- Settles O3: op byte, operands and zero bits are all 64 bits of a word. -/
theorem encodeOfDecodeIsTheWord : Obligations.EncodeOfDecodeIsTheWord := by
  intro w i h
  obtain ⟨hop, hz, rfl⟩ | ⟨hop, hz, rfl⟩ | ⟨hop, hz, rfl⟩ | ⟨hop, hz, rfl⟩ | ⟨hop, hz, rfl⟩ | ⟨hop, hz, rfl⟩ :=
    decode_cases h
  · exact Cmd.make_eq_of_op hop (Cmd.below_op_of_zerosW hz)
  · exact Cmd.make_eq_of_op hop (Cmd.below_op_of_zerosR hz)
  · exact Cmd.make_eq_of_op hop (Cmd.below_op_of_zerosW hz)
  · exact Cmd.make_eq_of_op hop (Cmd.below_op_of_zerosR hz)
  · exact Cmd.make_eq_of_op hop (Cmd.below_op_of_zerosN hz)
  · exact Cmd.make_eq_of_op hop (Cmd.below_op_of_zerosL hz)

/-! ### The opcode table -/

/-- The op byte of each mnemonic (spec/30_encoding.md R64). -/
def opBytes : List (String × Nat) :=
  [("WROUT", 1), ("RDOUT", 2), ("WRIN", 3), ("RDIN", 4), ("EXCH", 5), ("SETLED", 6)]

theorem mnemonic_op_mem_opBytes {w : Cmd} {i : Instr} (h : decode w = .command i) :
    (i.mnemonic, w.op.toNat) ∈ opBytes := by
  obtain ⟨hop, -, rfl⟩ | ⟨hop, -, rfl⟩ | ⟨hop, -, rfl⟩ | ⟨hop, -, rfl⟩ | ⟨hop, -, rfl⟩ | ⟨hop, -, rfl⟩ :=
    decode_cases h
  all_goals simp [hop, opBytes, Instr.mnemonic]

theorem opBytes_functional : ∀ p ∈ opBytes, ∀ q ∈ opBytes, p.1 = q.1 → p.2 = q.2 := by decide

/-- If the decoder guards command `i` by `z` at op byte `k`, the words of `i`'s row are those with that op byte that pass
the guard. -/
theorem op_and_zeros_iff_decode {w : Cmd} {k : Nat} {z : Bool} {i : Instr}
    (hdec : w.op.toNat = k → decode w = .guard w z i) (hk : (i.mnemonic, k) ∈ opBytes) :
    (w.op.toNat = k ∧ z = true) ↔ ∃ j, decode w = .command j ∧ j.mnemonic = i.mnemonic := by
  constructor
  · rintro ⟨hop, rfl⟩
    exact ⟨i, hdec hop, rfl⟩
  · rintro ⟨j, hj, hname⟩
    have hop : w.op.toNat = k := opBytes_functional _ (mnemonic_op_mem_opBytes hj) _ hk hname
    exact ⟨hop, Decoded.zeros_of_guard_eq_command ((hdec hop).symm.trans hj)⟩

/-- A word matches a row exactly when it decodes to the row's command. -/
theorem OpRow.matches_iff_decode {r : OpRow} (hr : r ∈ opcodeTable) (w : Cmd) :
    r.matches w = true ↔ ∃ i, decode w = .command i ∧ i.mnemonic = r.mnemonic := by
  simp only [opcodeTable, List.mem_cons, List.not_mem_nil, or_false] at hr
  rw [OpRow.matches, beq_iff_eq]
  obtain rfl | rfl | rfl | rfl | rfl | rfl := hr
  · exact (Cmd.matchesW1 w).trans (op_and_zeros_iff_decode decode_of_op_eq_1 (by simp [opBytes, Instr.mnemonic]))
  · exact (Cmd.matchesR2 w).trans (op_and_zeros_iff_decode decode_of_op_eq_2 (by simp [opBytes, Instr.mnemonic]))
  · exact (Cmd.matchesW3 w).trans (op_and_zeros_iff_decode decode_of_op_eq_3 (by simp [opBytes, Instr.mnemonic]))
  · exact (Cmd.matchesR4 w).trans (op_and_zeros_iff_decode decode_of_op_eq_4 (by simp [opBytes, Instr.mnemonic]))
  · exact (Cmd.matchesN5 w).trans (op_and_zeros_iff_decode decode_of_op_eq_5 (by simp [opBytes, Instr.mnemonic]))
  · exact (Cmd.matchesL6 w).trans (op_and_zeros_iff_decode decode_of_op_eq_6 (by simp [opBytes, Instr.mnemonic]))

theorem opcodeTable_mnemonic_injective : ∀ r ∈ opcodeTable, ∀ q ∈ opcodeTable, r.mnemonic = q.mnemonic → r = q := by
  decide

/-- No two rows match one word: both would name the one command the word decodes to. -/
theorem OpRow.eq_of_matches {w : Cmd} {r q : OpRow} (hr : r ∈ opcodeTable) (hq : q ∈ opcodeTable)
    (hrw : r.matches w = true) (hqw : q.matches w = true) : r = q := by
  obtain ⟨i, hi, hir⟩ := (OpRow.matches_iff_decode hr w).mp hrw
  obtain ⟨j, hj, hjq⟩ := (OpRow.matches_iff_decode hq w).mp hqw
  obtain rfl : i = j := Decoded.command.inj (hi.symm.trans hj)
  exact opcodeTable_mnemonic_injective r hr q hq (hir.symm.trans hjq)

theorem Instr.exists_row (i : Instr) : ∃ r ∈ opcodeTable, i.mnemonic = r.mnemonic := by
  cases i <;> simp [opcodeTable, Instr.mnemonic]

/-- Settles O4, from the rows of the table as fields and the decoder's equation for each op byte. -/
theorem opcodeTableRowsAreTheCommands : Obligations.OpcodeTableRowsAreTheCommands :=
  ⟨fun w _ hr => OpRow.matches_iff_decode hr w, fun _ _ _ hr hq hrw hqw => OpRow.eq_of_matches hr hq hrw hqw,
    fun _ _ h => mnemonic_op_mem_opBytes h⟩

/-! ### Illegal words -/

/-- An illegal word that arrives at a block without a fault raises IllegalCommand. -/
theorem Machine.step_eq_raise_of_illegal {s u : Machine.State} {w : Cmd} {why : Illegal} (hf : s.fault = none)
    (hn : s.nextArrival = some (w, u)) (hd : decode w = .illegal why) :
    Machine.step s = .next (u.raise .illegalCommand w none) := by
  simp [Machine.step, Machine.fetch, hf, hn, hd]

/-- A word issued next arrives at once, and taking it leaves the state it was issued in. -/
theorem Machine.State.nextArrival_issueNext (s : Machine.State) (w : Cmd) :
    (s.issueNext w).nextArrival = some (w, s) := by
  have hfree : s.phase = .idle ∨ s.phase.unblockedIssuer = .other := by
    cases s.phase with
    | idle => exact .inl rfl
    | transacting => exact .inr rfl
  exact nextArrival_eq_some (s := s.issueNext w) (rest := s.issued) rfl hfree

theorem Machine.step_issueNext_illegal {s : Machine.State} {w : Cmd} {why : Illegal} (hd : decode w = .illegal why)
    (hf : s.fault = none) : Machine.step (s.issueNext w) = .next (s.raise .illegalCommand w none) :=
  Machine.step_eq_raise_of_illegal hf (s.nextArrival_issueNext w) hd

/-- Settles O5: a word that decodes matches the row of its command and no other, and any other word matches none. -/
theorem everyWordMatchesOneRowOrIsIllegal : Obligations.EveryWordMatchesOneRowOrIsIllegal := by
  intro w
  cases hd : decode w with
  | command i =>
    obtain ⟨r, hr, hname⟩ := i.exists_row
    have hrw : r.matches w = true := (OpRow.matches_iff_decode hr w).mpr ⟨i, hd, hname⟩
    exact .inl ⟨r, hr, hrw, fun q hq hqw => OpRow.eq_of_matches hq hr hqw hrw, i, rfl⟩
  | illegal why =>
    refine .inr ⟨fun r hr => ?_, ⟨why, rfl⟩, fun s hf => Machine.step_issueNext_illegal hd hf⟩
    rw [← Bool.not_eq_true, OpRow.matches_iff_decode hr w]
    simp [hd]

/-- A field with a 1 in it is not zero. -/
theorem Cmd.field_beq_zero_of_bit {w : Cmd} {n lo len : Nat} (hn : w.getLsbD n = true) (hlo : lo ≤ n)
    (hlt : n < lo + len) : (w.field lo len == 0) = false := by
  rw [beq_eq_false_iff_ne]
  intro h
  have hbit := (Cmd.field_eq_iff w lo len 0).mp h ⟨n - lo, by omega⟩
  simp [Nat.add_sub_cancel' hlo, hn] at hbit

theorem Cmd.zerosN_of_bit {w : Cmd} {n : Nat} (hn : w.getLsbD n = true) (hlt : n < 56) : w.zerosN = false :=
  Cmd.field_beq_zero_of_bit hn (Nat.zero_le n) (by omega)

theorem Cmd.zerosR_of_bit {w : Cmd} {n : Nat} (hn : w.getLsbD n = true) (h : (48 ≤ n ∧ n < 56) ∨ n < 40) :
    w.zerosR = false := by
  rw [Cmd.zerosR, Bool.and_eq_false_iff]
  exact h.imp (fun ⟨hlo, hhi⟩ => Cmd.field_beq_zero_of_bit hn hlo hhi)
    fun hhi => Cmd.field_beq_zero_of_bit hn (Nat.zero_le n) (by omega)

theorem Cmd.zerosW_of_bit {w : Cmd} {n : Nat} (hn : w.getLsbD n = true)
    (h : (48 ≤ n ∧ n < 56) ∨ (8 ≤ n ∧ n < 40)) : w.zerosW = false := by
  rw [Cmd.zerosW, Bool.and_eq_false_iff]
  exact h.imp (fun ⟨hlo, hhi⟩ => Cmd.field_beq_zero_of_bit hn hlo hhi)
    fun ⟨hlo, hhi⟩ => Cmd.field_beq_zero_of_bit hn hlo hhi

theorem Cmd.zerosL_of_bit {w : Cmd} {n : Nat} (hn : w.getLsbD n = true) (hlo : 40 ≤ n) (hhi : n < 56) :
    w.zerosL = false :=
  Cmd.field_beq_zero_of_bit hn hlo hhi

/-- A defined op with a 1 in a bit its format marks 0 (spec/30_encoding.md R61, R66). -/
theorem decode_of_reserved_bit {w : Cmd} {n : Nat} (hn : w.getLsbD n = true)
    (h : (w.op = 0x05 ∧ n < 56) ∨
      ((w.op = 0x02 ∨ w.op = 0x04) ∧ ((48 ≤ n ∧ n < 56) ∨ n < 40)) ∨
      ((w.op = 0x01 ∨ w.op = 0x03) ∧ ((48 ≤ n ∧ n < 56) ∨ (8 ≤ n ∧ n < 40))) ∨
      (w.op = 0x06 ∧ 40 ≤ n ∧ n < 56)) :
    decode w = .illegal (.reservedBits w.op) := by
  obtain ⟨hop, hb⟩ | ⟨hop | hop, hb⟩ | ⟨hop | hop, hb⟩ | ⟨hop, hlo, hhi⟩ := h
  · rw [decode_of_op_eq_5 (congrArg BitVec.toNat hop), Cmd.zerosN_of_bit hn hb, Decoded.guard_false]
  · rw [decode_of_op_eq_2 (congrArg BitVec.toNat hop), Cmd.zerosR_of_bit hn hb, Decoded.guard_false]
  · rw [decode_of_op_eq_4 (congrArg BitVec.toNat hop), Cmd.zerosR_of_bit hn hb, Decoded.guard_false]
  · rw [decode_of_op_eq_1 (congrArg BitVec.toNat hop), Cmd.zerosW_of_bit hn hb, Decoded.guard_false]
  · rw [decode_of_op_eq_3 (congrArg BitVec.toNat hop), Cmd.zerosW_of_bit hn hb, Decoded.guard_false]
  · rw [decode_of_op_eq_6 (congrArg BitVec.toNat hop), Cmd.zerosL_of_bit hn hlo hhi, Decoded.guard_false]

/-- Settles O6: the reserved op bytes, then a 1 in a run of bits that each format marks 0. -/
theorem reservedWordsAreIllegal : Obligations.ReservedWordsAreIllegal := by
  refine ⟨fun w h => ?_, fun w n hn h => ?_, ?_, fun w why s hd hf => ?_⟩
  · exact decode_of_reserved_op (h.imp_left (congrArg BitVec.toNat))
  · exact decode_of_reserved_bit hn h
  · exact ⟨_, decode_of_reserved_op (.inl rfl)⟩
  · exact Machine.step_issueNext_illegal hd hf

/-! ### The examples and the assembler -/

/-- Settles O1: each example word is the encoding of the command beside it. -/
theorem exampleWordsDecode : Obligations.ExampleWordsDecode :=
  have h := decodeOfEncodeIsTheCommand
  ⟨h (.wrout 0 0), h (.wrout 38 0xFF), h (.rdout 5), h (.wrin 95 0x12), h (.rdin 6), h (.rdin 96), h .exch,
    h (.setled 10 20 30 1 2)⟩

theorem Machine.assemble_eq_none_iff (l : AsmLine) : Machine.assemble l = none ↔ l.wf = false := by
  cases hw : l.wf <;> simp [Machine.assemble, hw]

/-- The line that writes a command down: its operands as numbers. -/
def Instr.asmLine : Instr → AsmLine
  | .wrout idx data => .wrout idx.toNat data.toNat
  | .rdout idx => .rdout idx.toNat
  | .wrin idx data => .wrin idx.toNat data.toNat
  | .rdin idx => .rdin idx.toNat
  | .exch => .exch
  | .setled r g b on off => .setled r.toNat g.toNat b.toNat on.toNat off.toNat

/-- The operands of a command are 8-bit fields, so its line is well-formed. -/
theorem Instr.asmLine_wf (i : Instr) : i.asmLine.wf = true := by
  have hlt (v : BitVec 8) : v.toNat < 256 := v.isLt
  cases i <;> simp [Instr.asmLine, AsmLine.wf, hlt]

theorem Machine.assemble_asmLine (i : Instr) : Machine.assemble i.asmLine = some i := by
  unfold Machine.assemble
  rw [if_pos i.asmLine_wf]
  cases i <;> simp [Instr.asmLine]

/-- Settles O7: a wide operand fails the check of its line, and a command's own line gives the command. -/
theorem assemblerRejectsWideOperands : Obligations.AssemblerRejectsWideOperands := by
  simp only [Obligations.AssemblerRejectsWideOperands, Machine.assemble_eq_none_iff]
  refine ⟨fun idx data h => ?_, fun idx h => ?_, fun r g b on off h => ?_, fun idx data => ?_, fun r g b on off => ?_,
    rfl, rfl⟩
  · simp only [AsmLine.wf, Bool.and_eq_false_iff, decide_eq_false_iff_not]; omega
  · simp only [AsmLine.wf, decide_eq_false_iff_not]; omega
  · simp only [AsmLine.wf, Bool.and_eq_false_iff, decide_eq_false_iff_not]; omega
  · exact ⟨Machine.assemble_asmLine (.wrout idx data), Machine.assemble_asmLine (.wrin idx data),
      Machine.assemble_asmLine (.rdout idx), Machine.assemble_asmLine (.rdin idx)⟩
  · exact Machine.assemble_asmLine (.setled r g b on off)

end Sys2Proof
end

section
/-! PROOFS. The statements of the family spec/40_codec.md: the byte commands, what they leave unchanged, and the field
views, from what each byte command and each view does on a ready block, in either space, and the numbers that the
multi-byte fields denote. -/

namespace Sys2Proof

/-- Every index of a space is an 8-bit number. -/
theorem Space.size_lt_256 (sp : Space) : sp.size < 256 := by cases sp <;> decide

end Sys2Proof

namespace Sys2Proof.Machine

/-! ### The byte commands -/

/-- Settles O14: a ready block runs WROUT, which is one write into OUT. -/
theorem wroutStoresItsByte : Obligations.WroutStoresItsByte := fun _ data s h hi =>
  ⟨_, exec_writeCmd (sp := .out) h hi, rfl, s.out.read_write_same _ data, fun _ ha => s.out.read_write_of_ne data ha⟩

/-- Settles O15: a ready block runs WRIN, which is one write into IN. -/
theorem wrinStoresItsByte : Obligations.WrinStoresItsByte := fun _ data s h hi =>
  ⟨_, exec_writeCmd (sp := .inb) h hi, rfl, s.inb.read_write_same _ data, fun _ ha => s.inb.read_write_of_ne data ha⟩

/-- Settles O16: RDOUT is RDS in OUT. -/
theorem rdoutReadsItsByte : Obligations.RdoutReadsItsByte := fun _ _ _ h hi hv => exec_readCmd (sp := .out) h hi hv

/-- Settles O17: RDIN is RDS in IN. -/
theorem rdinReadsItsByte : Obligations.RdinReadsItsByte := fun _ _ _ h hi hv => exec_readCmd (sp := .inb) h hi hv

/-- RDS at an unwritten byte of its space. -/
theorem exec_readCmd_unwritten {sp : Space} {a : BitVec 8} {s : State} (h : s.Ready) (ha : a.toNat < sp.size)
    (hv : (s.mem sp).read a.toNat = none) :
    exec (readCmd sp a) s = .next (s.raise .unwrittenRead (encode (readCmd sp a)) (some a.toNat)) := by
  cases sp with
  | out =>
    simp only [readCmd, exec, execRdout]
    rw [guarded_ready h, atIndex_lt ha, readToResp_none hv]
  | inb =>
    simp only [readCmd, exec, execRdin]
    rw [guarded_ready h, atIndex_lt ha, readToResp_none hv]

/-- Everything WRS can do: raise, or write its byte on a ready block. -/
theorem exec_writeCmd_cases {sp : Space} {a v : BitVec 8} {s t : State} (h : exec (writeCmd sp a v) s = .next t) :
    (∃ c w x, t = s.raise c w x) ∨ (s.fault = none ∧ t = writeByte sp v s a.toNat) := by
  obtain ⟨c, x, ht⟩ | ⟨hr, heffect⟩ := exec_cases h
  · exact .inl ⟨c, _, x, ht⟩
  · refine .inr ⟨hr.1, ?_⟩
    cases sp with
    | out =>
      obtain ⟨-, ht⟩ : a.toNat < outSize ∧ t = s.putOut a.toNat v := by simpa [writeCmd] using heffect
      exact ht
    | inb =>
      obtain ⟨-, ht⟩ : a.toNat < inSize ∧ t = s.putIn a.toNat v := by simpa [writeCmd] using heffect
      exact ht

/-- Everything RDS can do: raise, or put a byte into RESP on a ready block. -/
theorem exec_readCmd_cases {sp : Space} {a : BitVec 8} {s t : State} (h : exec (readCmd sp a) s = .next t) :
    (∃ c w x, t = s.raise c w x) ∨ (s.fault = none ∧ ∃ b, t = s.putResp b) := by
  obtain ⟨c, x, ht⟩ | ⟨hr, heffect⟩ := exec_cases h
  · exact .inl ⟨c, _, x, ht⟩
  · exact .inr ⟨hr.1, by cases sp <;> simpa [readCmd] using heffect⟩

/-- A write changes at most its own byte of its space, and nothing where it raises. -/
theorem exec_writeCmd_mem {sp : Space} {a v : BitVec 8} {s t : State} (h : exec (writeCmd sp a v) s = .next t) :
    (∀ c, c ≠ a.toNat → (t.mem sp).read c = (s.mem sp).read c) ∧ (t.fault ≠ none → t.mem sp = s.mem sp) := by
  obtain ⟨c, w, x, rfl⟩ | ⟨hf, rfl⟩ := exec_writeCmd_cases h
  · cases sp <;> simp
  · refine ⟨fun c hc => ?_, fun hfault => ?_⟩
    · rw [State.mem_writeByte, Memory.read_write_of_ne _ _ hc]
    · cases sp <;> simp [hf] at hfault

/-- A read changes RESP and FAULT only, and RESP only where it does not raise. -/
theorem exec_readCmd_frame {sp : Space} {a : BitVec 8} {s t : State} (h : exec (readCmd sp a) s = .next t) :
    t = { s with resp := t.resp, fault := t.fault } ∧ (t.fault ≠ none → t.resp = s.resp) := by
  obtain ⟨c, w, x, rfl⟩ | ⟨hf, b, rfl⟩ := exec_readCmd_cases h
  · exact ⟨rfl, fun _ => rfl⟩
  · exact ⟨rfl, fun hfault => absurd hf hfault⟩

/-- Settles O20, from everything a write and a read can do in either space. -/
theorem byteCommandsTouchNothingElse : Obligations.ByteCommandsTouchNothingElse := by
  refine fun idx data s t => ⟨fun h => ⟨?_, exec_writeCmd_mem (sp := .out) h⟩,
    fun h => ⟨?_, exec_writeCmd_mem (sp := .inb) h⟩, fun h => ?_⟩
  · obtain ⟨c, w, x, rfl⟩ | ⟨-, rfl⟩ := exec_writeCmd_cases (sp := .out) h <;> rfl
  · obtain ⟨c, w, x, rfl⟩ | ⟨-, rfl⟩ := exec_writeCmd_cases (sp := .inb) h <;> rfl
  · exact h.elim (exec_readCmd_frame (sp := .out)) (exec_readCmd_frame (sp := .inb))

/-- Settles O21: the write makes the byte a written one, which the read then finds. -/
theorem writeThenReadReturnsTheByte : Obligations.WriteThenReadReturnsTheByte := by
  intro sp a v s h ha
  have hwritten : ((writeByte sp v s a.toNat).mem sp).read a.toNat = some v := by simp
  exact ⟨_, _, exec_writeCmd h ha, exec_readCmd (State.ready_writeByte h) ha hwritten, rfl, State.mem_putResp sp _ v⟩

/-! ### The reads of a view -/

/-- Address `a` lies in the space and holds byte `b`. -/
def State.Holds (s : State) (sp : Space) (a : BitVec 8) (b : Byte) : Prop :=
  a.toNat < sp.size ∧ (s.mem sp).read a.toNat = some b

@[simp] theorem State.holds_putResp (s : State) (v : Byte) : (s.putResp v).Holds = s.Holds := by
  funext sp a b
  simp [State.Holds]

/-- The reads of a view on written bytes: RESP takes each byte in turn. -/
theorem readBytes_of_holds {sp : Space} {addrs : List (BitVec 8)} {bs : List Byte} {s : State} (h : s.Ready)
    (hw : List.Forall₂ (s.Holds sp) addrs bs) : readBytes sp addrs s = .next (bs.foldl State.putResp s, some bs) := by
  induction addrs generalizing bs s with
  | nil => cases hw; rfl
  | cons a rest ih =>
    obtain _ | ⟨⟨ha, hb⟩, hrest⟩ := hw
    exact readBytes_cons h ha hb (ih (State.ready_putResp h) (by simpa using hrest))

/-- A get view on written bytes combines them. -/
theorem getView_of_holds {sp : Space} {addrs : List (BitVec 8)} {bs : List Byte} {s : State}
    (combine : List Byte → Option FieldValue) (h : s.Ready) (hw : List.Forall₂ (s.Holds sp) addrs bs) :
    getView sp addrs combine s = .next (bs.foldl State.putResp s, combine bs) := by
  simp [getView, readBytes_of_holds h hw]

/-- The addresses of a field that lies in its space do not wrap (log 28). -/
theorem toNat_add_of_lt_size {o k : BitVec 8} {sp : Space} (h : o.toNat + k.toNat < sp.size) :
    (o + k).toNat = o.toNat + k.toNat := by
  have hsize := sp.size_lt_256
  rw [BitVec.toNat_add]
  omega

/-- The byte `k` places after address `o`. -/
theorem State.holds_add {s : State} {sp : Space} {o k : BitVec 8} {b : Byte} (h : o.toNat + k.toNat < sp.size)
    (hb : (s.mem sp).read (o.toNat + k.toNat) = some b) : s.Holds sp (o + k) b := by
  rw [State.Holds, toNat_add_of_lt_size h]
  exact ⟨h, hb⟩

/-! ### Bits -/

@[simp] theorem writeByte_resp (sp : Space) (v : Byte) (s : State) (a : Nat) : (writeByte sp v s a).resp = s.resp := by
  cases sp <;> rfl

@[simp] theorem writeByte_cfg (sp : Space) (v : Byte) (s : State) (a : Nat) : (writeByte sp v s a).cfg = s.cfg := by
  cases sp <;> rfl

theorem State.holds_writeByte (sp : Space) (v : Byte) (s : State) {a : BitVec 8} (ha : a.toNat < sp.size) :
    (writeByte sp v s a.toNat).Holds sp a v := ⟨ha, by simp⟩

theorem execSetbit_of_holds {sp : Space} {b : BitVec 8} {x : Byte} {s : State} (n : Fin 8) (v : Bool) (h : s.Ready)
    (hx : s.Holds sp b x) :
    execSetbit sp b n v s = .next (writeByte sp (withBit x n v) (s.putResp x) b.toNat) := by
  have hread : readBytes sp [b] s = .next (s.putResp x, some [x]) := readBytes_of_holds h (.cons hx .nil)
  rw [execSetbit, hread]
  exact exec_writeCmd (State.ready_putResp h) hx.1

theorem execSetbit_unwritten {sp : Space} {b : BitVec 8} {s : State} (n : Fin 8) (v : Bool) (h : s.Ready)
    (hb : b.toNat < sp.size) (hx : (s.mem sp).read b.toNat = none) :
    execSetbit sp b n v s = .next (s.raise .unwrittenRead (encode (readCmd sp b)) (some b.toNat)) := by
  simp [execSetbit, readBytes, exec_readCmd_unwritten h hb hx]

theorem getbit_of_holds {sp : Space} {b : BitVec 8} {x : Byte} {s : State} (n : Fin 8) (h : s.Ready)
    (hx : s.Holds sp b x) : execPseudo (.getbit sp b n) s = .next (s.putResp x, some (.bit (bitOf x n))) :=
  getView_of_holds _ h (.cons hx .nil)

/-- GETBIT on a byte in which that bit was just set. -/
theorem getbit_writeByte_withBit {sp : Space} {b : BitVec 8} {s : State} (n : Fin 8) (v : Bool) (x : Byte) (h : s.Ready)
    (hb : b.toNat < sp.size) :
    ∃ u, execPseudo (.getbit sp b n) (writeByte sp (withBit x n v) s b.toNat) = .next (u, some (.bit v)) := by
  have hget := getbit_of_holds n (State.ready_writeByte h) (State.holds_writeByte sp (withBit x n v) s hb)
  rw [bitOf_withBit, if_pos rfl] at hget
  exact ⟨_, hget⟩

/-- Settles O38: SETBIT is the read of x and the write of x with one bit changed. -/
theorem setbitChangesOneBit : Obligations.SetbitChangesOneBit := by
  intro sp b n v x s h hb hx
  have hset : execPseudo (.setbit sp b n v) s = _ := congrArg noValue (execSetbit_of_holds n v h ⟨hb, hx⟩)
  obtain ⟨u, hget⟩ := getbit_writeByte_withBit n v x (State.ready_putResp (v := x) h) hb
  refine ⟨_, withBit x n v, u, hset, State.ready_writeByte h, by simp, by simp, fun k => bitOf_withBit x n k v,
    fun a ha => ?_, hget⟩
  rw [State.mem_writeByte, Memory.read_write_of_ne _ _ ha, State.mem_putResp]

/-- Settles O39: the read of SETBIT raises, and the sequence ends there. -/
theorem setbitOnAnUnwrittenByteFaults : Obligations.SetbitOnAnUnwrittenByteFaults := fun _ _ n v _ h hb hx =>
  congrArg noValue (execSetbit_unwritten n v h hb hx)

/-! ### Pulse widths -/

/-- The number a run of bits denotes. -/
theorem toNat_extract_bits {n : Nat} (x : BitVec n) (lo len : Nat) :
    (x.extractLsb' lo len).toNat = x.toNat / 2 ^ lo % 2 ^ len := by
  rw [BitVec.extractLsb'_toNat, Nat.shiftRight_eq_div_pow]

/-- The bytes of a pulse width combine to it in either order. -/
theorem pwValue_pwBytes (order : PwOrder) (v : BitVec 16) :
    pwValue order (pwBytes order v).1 (pwBytes order v).2 = v := by
  apply BitVec.eq_of_toNat_eq
  have := v.isLt
  cases order <;> simp only [pwValue, pwBytes, toNat_append_bits, toNat_extract_bits] <;> omega

theorem execAll_cons {i : Instr} {rest : List Instr} {s t : State} (h : exec i s = .next t) (hf : t.fault = none) :
    execAll (i :: rest) s = execAll rest t := by simp [execAll, h, hf]

/-- The state after both writes of SETPW. -/
def State.putPw (s : State) (sp : Space) (o : Nat) (v : BitVec 16) : State :=
  let bytes := pwBytes s.cfg.pwOrder v
  writeByte sp bytes.2 (writeByte sp bytes.1 s o) (o + 1)

theorem State.ready_putPw {s : State} {sp : Space} {o : Nat} {v : BitVec 16} (h : s.Ready) : (s.putPw sp o v).Ready :=
  State.ready_writeByte (State.ready_writeByte h)

@[simp] theorem State.putPw_resp (s : State) (sp : Space) (o : Nat) (v : BitVec 16) :
    (s.putPw sp o v).resp = s.resp := by
  simp [State.putPw]

@[simp] theorem State.putPw_cfg (s : State) (sp : Space) (o : Nat) (v : BitVec 16) : (s.putPw sp o v).cfg = s.cfg := by
  simp [State.putPw]

theorem State.read_putPw (s : State) (sp : Space) (o : Nat) (v : BitVec 16) (a : Nat) :
    ((s.putPw sp o v).mem sp).read a =
      if a = o + 1 then some (pwBytes s.cfg.pwOrder v).2
      else if a = o then some (pwBytes s.cfg.pwOrder v).1
      else (s.mem sp).read a := by
  simp [State.putPw, Memory.read_write]

theorem execAll_setPwCmds {sp : Space} {o : BitVec 8} {s : State} (v : BitVec 16) (h : s.Ready)
    (ho : o.toNat + 1 < sp.size) :
    execAll (setPwCmds s.cfg.pwOrder sp o v) s = .next (s.putPw sp o.toNat v) := by
  have hnext : (o + 1).toNat = o.toNat + 1 := toNat_add_of_lt_size ho
  have hfirst : (writeByte sp (pwBytes s.cfg.pwOrder v).1 s o.toNat).Ready := State.ready_writeByte h
  have hboth : (s.putPw sp o.toNat v).Ready := State.ready_putPw h
  rw [setPwCmds, execAll_cons (exec_writeCmd h (Nat.lt_of_succ_lt ho)) hfirst.1,
    execAll_cons (exec_writeCmd hfirst (hnext ▸ ho)) (hnext ▸ hboth.1), hnext]
  rfl

theorem getpw_of_holds {sp : Space} {o : BitVec 8} {x y : Byte} {s : State} (h : s.Ready) (hx : s.Holds sp o x)
    (hy : s.Holds sp (o + 1) y) :
    execPseudo (.getpw sp o) s = .next ((s.putResp x).putResp y, some (.pulse (pwValue s.cfg.pwOrder x y))) :=
  getView_of_holds _ h (.cons hx (.cons hy .nil))

/-- GETPW on the bytes that SETPW wrote. -/
theorem getpw_putPw {sp : Space} {o : BitVec 8} {s : State} (v : BitVec 16) (h : s.Ready) (ho : o.toNat + 1 < sp.size) :
    ∃ u, execPseudo (.getpw sp o) (s.putPw sp o.toNat v) = .next (u, some (.pulse v)) := by
  have hx : (s.putPw sp o.toNat v).Holds sp o (pwBytes s.cfg.pwOrder v).1 :=
    ⟨Nat.lt_of_succ_lt ho, by simp [State.read_putPw]⟩
  have hy : (s.putPw sp o.toNat v).Holds sp (o + 1) (pwBytes s.cfg.pwOrder v).2 :=
    State.holds_add ho (by simp [State.read_putPw])
  have hget := getpw_of_holds (State.ready_putPw h) hx hy
  rw [State.putPw_cfg, pwValue_pwBytes] at hget
  exact ⟨_, hget⟩

/-- Settles O40: the two bytes are the low and the high one in the order PW_ORDER gives, and combine to the value. -/
theorem setpwThenGetpwReturnsTheValue : Obligations.SetpwThenGetpwReturnsTheValue := by
  intro sp o v s h ho
  have hset : execPseudo (.setpw sp o v) s = _ := congrArg noValue (execAll_setPwCmds v h ho)
  obtain ⟨u, hget⟩ := getpw_putPw v h ho
  have hv := v.isLt
  refine ⟨_, u, v.extractLsb' 0 8, v.extractLsb' 8 8, hset, State.ready_putPw h, State.putPw_resp .., ?_, ?_,
    fun horder => ?_, fun horder => ?_, fun a h0 h1 => ?_, hget⟩
  · rw [toNat_extract_bits]; omega
  · rw [toNat_extract_bits]; omega
  · simp [State.read_putPw, horder, pwBytes]
  · simp [State.read_putPw, horder, pwBytes]
  · simp [State.read_putPw, h0, h1]

/-! ### Readings and finger records -/

/-- The number of an inertial reading: big-endian, negative from 0x80 in the first byte on. -/
theorem imuValue_eq (x y : Byte) :
    imuValue x y = ((x.toNat * 256 + y.toNat : Nat) : Int) - if 128 ≤ x.toNat then 65536 else 0 := by
  have := y.isLt
  rw [imuValue, BitVec.toInt_eq_toNat_cond, toNat_append_bits]
  split_ifs <;> omega

/-- Settles O42, from the two reads and the number they combine to. -/
theorem getimuIsBigEndianAndSigned : Obligations.GetimuIsBigEndianAndSigned := by
  intro o x y s h ho hx hy
  have hx' : s.Holds .inb o x := ⟨Nat.lt_of_succ_lt ho, hx⟩
  have hy' : s.Holds .inb (o + 1) y := State.holds_add ho hy
  rw [← imuValue_eq]
  exact ⟨_, getView_of_holds _ h (.cons hx' (.cons hy' .nil)), rfl⟩

/-- The parts of a finger record in layout LSB_ALLOC, as numbers. -/
theorem fingerValue_lsbAlloc (b0 b1 b2 b3 : Byte) :
    let g := fingerValue .lsbAlloc b0 b1 b2 b3
    g.id.toNat = b0.toNat % 128 ∧ g.valid.toNat = b0.toNat / 128 ∧
      g.x.toNat = b2.toNat % 16 * 256 + b1.toNat ∧ g.y.toNat = b3.toNat * 16 + b2.toNat / 16 := by
  have := b0.isLt; have := b2.isLt
  simp only [fingerValue, toNat_append_bits, toNat_extract_bits, BitVec.getLsbD, Nat.toNat_testBit]
  omega

/-- The parts of a finger record in layout MSB_ALLOC, as numbers. -/
theorem fingerValue_msbAlloc (b0 b1 b2 b3 : Byte) :
    let g := fingerValue .msbAlloc b0 b1 b2 b3
    g.id.toNat = b0.toNat / 2 ∧ g.valid.toNat = b0.toNat % 2 ∧
      g.x.toNat = b1.toNat * 16 + b2.toNat / 16 ∧ g.y.toNat = b2.toNat % 16 * 256 + b3.toNat := by
  have := b0.isLt; have := b2.isLt
  simp only [fingerValue, toNat_append_bits, toNat_extract_bits, BitVec.getLsbD, Nat.toNat_testBit]
  omega

/-- Settles O43, from the four reads and the parts of the record in each layout. -/
theorem gettouchSplitsByLayout : Obligations.GettouchSplitsByLayout := by
  intro f b0 b1 b2 b3 s h hf h0 h1 h2 h3
  have h0' : s.Holds .inb f b0 := ⟨show f.toNat < inSize by omega, h0⟩
  have h1' : s.Holds .inb (f + 1) b1 := State.holds_add (show f.toNat + 1 < inSize by omega) h1
  have h2' : s.Holds .inb (f + 2) b2 := State.holds_add (show f.toNat + 2 < inSize by omega) h2
  have h3' : s.Holds .inb (f + 3) b3 := State.holds_add hf h3
  refine ⟨fingerValue s.cfg.touchLayout b0 b1 b2 b3,
    getView_of_holds _ h (.cons h0' (.cons h1' (.cons h2' (.cons h3' .nil)))), fun hl => ?_, fun hl => ?_⟩
  · rw [hl]; exact fingerValue_lsbAlloc b0 b1 b2 b3
  · rw [hl]; exact fingerValue_msbAlloc b0 b1 b2 b3

/-! ### The fields -/

/-- A byte offset in a space fits the 8-bit operand (log 16). -/
theorem addr_toNat {o : Nat} {sp : Space} (h : o < sp.size) : (addr o).toNat = o := by
  have hsize := sp.size_lt_256
  rw [addr, BitVec.toNat_ofNat]
  omega

theorem addr_lt_size {o : Nat} {sp : Space} (h : o < sp.size) : (addr o).toNat < sp.size := by
  rwa [addr_toNat h]

/-- A SETBIT that raised no fault found a written byte, so GETBIT gives the value. -/
theorem getbit_of_execSetbit {sp : Space} {b : BitVec 8} {n : Fin 8} {v : Bool} {s t : State} (h : s.Ready)
    (hb : b.toNat < sp.size) (hset : execSetbit sp b n v s = .next t) (hf : t.fault = none) :
    ∃ u, execPseudo (.getbit sp b n) t = .next (u, some (.bit v)) := by
  cases hx : (s.mem sp).read b.toNat with
  | none =>
    rw [execSetbit_unwritten n v h hb hx] at hset
    cases hset
    simp at hf
  | some x =>
    rw [execSetbit_of_holds n v h ⟨hb, hx⟩] at hset
    cases hset
    exact getbit_writeByte_withBit n v x (State.ready_putResp h) hb

/-- Settles O41: bits by SETBIT and GETBIT, bytes by one write and one read, pulse widths by SETPW and GETPW. -/
theorem fieldSetThenGetReturnsTheValue : Obligations.FieldSetThenGetReturnsTheValue := by
  intro f v s t h hin hset hf
  unfold writeField at hset
  split at hset
  next b n x =>
    obtain ⟨hb, -⟩ : b < outSize ∧ n < 8 := by simpa [FieldShape.inRange] using hin
    exact getbit_of_execSetbit h (addr_lt_size (sp := .out) hb) hset hf
  next sp b n x =>
    obtain ⟨hb, -⟩ : b < sp.size ∧ n < 8 := by simpa [FieldShape.inRange] using hin
    exact getbit_of_execSetbit h (addr_lt_size hb) hset hf
  next sp o x =>
    have ho : o < sp.size := by simpa [FieldShape.inRange] using hin
    rw [exec_writeCmd h (addr_lt_size ho)] at hset
    cases hset
    have hx := State.holds_writeByte sp x s (addr_lt_size ho)
    exact ⟨_, getView_of_holds _ (State.ready_writeByte h) (.cons hx .nil)⟩
  next sp o x =>
    have ho : o + 1 < sp.size := by simpa [FieldShape.inRange] using hin
    have ho' : (addr o).toNat + 1 < sp.size := by rwa [addr_toNat (Nat.lt_of_succ_lt ho)]
    rw [execAll_setPwCmds x h ho'] at hset
    cases hset
    exact getpw_putPw x h ho'
  next => cases hset

end Sys2Proof.Machine
end

section
/-! PROOFS. The statements of the family spec/41_transfer.md: what the log's padding beats send, where EXCH waits for
the bus and how it goes on, and what a completed EXCH depends on and leaves unchanged. The waits rest on one fact: where
the bus holds after its first answers, EXCH stands in the state `State.afterAnswers`. -/

namespace Sys2Proof.Machine

/-! ### The padding beats -/

/-- A log with one more event is padded when the log is and that event, if a beat from 39 on, sends the sentinel. -/
theorem Padded.concat {log : List BusEvent} {e : BusEvent} (h : Padded log)
    (he : ∀ i mosi miso, e = .beat i mosi miso → outSize ≤ i → mosi = pad) : Padded (log ++ [e]) := by
  intro i mosi miso hmem hi
  rcases List.mem_append.mp hmem with hold | hnew
  · exact h i mosi miso hold hi
  · exact he i mosi miso (List.mem_singleton.mp hnew).symm hi

/-- From beat 39 on the engine sends the sentinel, whatever OUT holds (spec/41_transfer.md R103). -/
theorem State.eq_pad_of_mosi {s : State} {mosi : Byte} (hm : s.mosi = some mosi) (hb : outSize ≤ s.beat) :
    mosi = pad := by
  rw [State.mosi, if_neg (Nat.not_lt.mpr hb)] at hm
  exact (Option.some.inj hm).symm

theorem Padded.runBeats {n : Nat} {s : State} (h : Padded s.busLog) : Padded (runBeats n s).busLog := by
  refine runBeats_keeps (P := fun u => Padded u.busLog) (fun _ _ h => h) ?beat (fun _ _ _ _ h => h) ?finish n s h
  case beat =>
    intro u mosi miso hm hu
    refine hu.concat fun i mosi' miso' e hi => ?_
    cases e
    exact State.eq_pad_of_mosi hm hi
  case finish => exact fun u hu => hu.concat fun _ _ _ e => nomatch e

/-- Only the start of a transaction and the engine add to the log. -/
theorem keptByParts_padded : KeptByParts fun s => Padded s.busLog where
  arrival _ _ h := h
  raise _ _ _ _ h := h
  putOut _ _ _ _ h := h
  putIn _ _ _ _ h := h
  putResp _ _ h := h
  start _ _ _ h := h.concat fun _ _ _ e => nomatch e
  engine _ _ h := h.runBeats

/-- Settles O31: padding survives every part of a step, and the log after reset is empty. -/
theorem paddingIsAlwaysTheSentinel : Obligations.PaddingIsAlwaysTheSentinel :=
  ⟨fun _ _ hs h => keptByParts_padded.step hs h, fun _ _ _ _ hmem => absurd hmem List.not_mem_nil⟩

/-! ### Waiting for the bus -/

/-- While a beat is left, the engine polls the bus at least once. -/
theorem State.engine_eq_runBeats_succ {s : State} (hlt : s.beat < inSize) : ∃ n, s.engine = runBeats (n + 1) s :=
  ⟨inSize - s.beat - 1, by rw [State.engine, Nat.sub_add_cancel (Nat.sub_pos_of_lt hlt)]⟩

/-- While a beat is left, the engine waits at once on a bus that gives no answer. -/
theorem State.engine_silent {s : State} (hw : s.OutWritten) (hlt : s.beat < inSize) (hbus : s.bus = []) :
    s.engine = s := by
  obtain ⟨n, hn⟩ := State.engine_eq_runBeats_succ hlt
  rw [hn, runBeats_silent hw hbus]

/-- While a beat is left, a stall makes the engine wait for the bus's further answers. -/
theorem State.engine_stall {s : State} {rest : List BusReply} (hw : s.OutWritten) (hlt : s.beat < inSize)
    (hbus : s.bus = .stall :: rest) : s.engine = s.withBus rest := by
  obtain ⟨n, hn⟩ := State.engine_eq_runBeats_succ hlt
  rw [hn, runBeats_stall hw hbus]

/-- EXCH after the bus's first answers is the engine going on from the beat they lead to. -/
theorem execExch_eq_engine {s : State} {misos : List Byte} {rest : List BusReply} (h : s.Ready) (hw : s.OutWritten)
    (hlen : misos.length ≤ inSize) (hbus : s.bus = misos.map .byte ++ rest) :
    execExch s = .next (s.afterAnswers misos rest).engine :=
  execExch_answered misos (inSize - misos.length) rest h hw (Nat.add_sub_of_le hlen) hbus

/-- EXCH on a bus that falls silent, or stalls, after its first answers waits right there. -/
theorem execExch_waits {s : State} {misos : List Byte} {rest : List BusReply} (h : s.Ready) (hw : s.OutWritten)
    (hlt : misos.length < inSize)
    (hbus : s.bus = misos.map .byte ∧ rest = [] ∨ s.bus = misos.map .byte ++ .stall :: rest) :
    execExch s = .next (s.afterAnswers misos rest) := by
  have written (q : List BusReply) := State.outWritten_afterAnswers hw misos q
  obtain ⟨hsilent, rfl⟩ | hstall := hbus
  · rw [execExch_eq_engine (rest := []) h hw hlt.le (by simp [hsilent]), State.engine_silent (written []) hlt rfl]
  · rw [execExch_eq_engine h hw hlt.le hstall, State.engine_stall (written _) hlt rfl]
    rfl

/-- Settles O25: the engine has run the answered beats and waits at the next one. -/
theorem exchWaitsAtABeatTheBusHolds : Obligations.ExchWaitsAtABeatTheBusHolds := by
  intro s misos rest hr hw hlt hbus
  refine ⟨_, execExch_waits hr hw hlt hbus, rfl, fun i hi => ?_, fun a ha => ?_⟩
  · simp [State.afterAnswers, read_storeFrom, hi]
  · simp [State.afterAnswers, read_storeFrom, Nat.not_lt.mpr ha]

/-- Settles O27: both buses lead the engine to the same beat with the same answers left; the stall only makes it wait
there once. -/
theorem aStallOnlyDelaysAnExchange : Obligations.AStallOnlyDelaysAnExchange := by
  intro s t misos rest hr hw hlt h
  have hstalled : execExch (s.withBus (misos.map .byte ++ .stall :: rest)) = .next (s.afterAnswers misos rest) :=
    execExch_waits (State.ready_withBus hr _) (State.outWritten_withBus hw _) hlt (.inr rfl)
  obtain rfl : s.afterAnswers misos rest = t := Host.Outcome.next.inj (hstalled.symm.trans h)
  exact execExch_eq_engine (State.ready_withBus hr _) (State.outWritten_withBus hw _) hlt.le rfl

/-- The owner's words wait while a transaction is in progress. -/
theorem State.nextArrival_eq_none {s : State} (hp : s.phase = .transacting) (hq : s.NoOverlap) :
    s.nextArrival = none := by
  unfold State.nextArrival
  cases hi : s.issued with
  | nil => rfl
  | cons a rest =>
    have howner : a.issuer = .owner := hq a (by simp [hi])
    simp [hp, howner]

/-- With no second issuer's word arriving, a step of a transaction is the engine going on. -/
theorem step_eq_engine {s : State} (hf : s.fault = none) (hp : s.phase = .transacting) (hq : s.NoOverlap) :
    step s = .next s.engine := by
  simp [step, fetch, hf, State.nextArrival_eq_none hp hq, State.proceed, hp]

/-- Settles O26: the invariant leaves a beat to run, and the bus gives it no answer. -/
theorem waitingOnASilentBusIsStuck : Obligations.WaitingOnASilentBusIsStuck := by
  intro s hs hf hp hq hbus
  rw [step_eq_engine hf hp hq, State.engine_silent (hs.out_written hp) (hs.beat_lt hp) hbus]

/-- Settles O9: the step is the engine going on, which takes no word from the queue. -/
theorem ownerIsBlockedDuringATransaction : Obligations.OwnerIsBlockedDuringATransaction := by
  intro s hf hp hq
  obtain ⟨-, -, -, hissued⟩ := runBeats_frame (inSize - s.beat) s
  exact ⟨s.engine, step_eq_engine hf hp hq, rfl, hissued⟩

/-! ### What a completed EXCH depends on and leaves unchanged -/

/-- A completed EXCH leaves in IN the received bytes with the d-pad decoded. -/
theorem inb_of_execExch_completed {s t : State} {misos : List Byte} {rest : List BusReply} (h : s.Ready)
    (hw : s.OutWritten) (hlen : misos.length = inSize) (hbus : s.bus = misos.map .byte ++ rest)
    (ht : execExch s = .next t) : t.inb = (storeFrom s.inb 0 misos).dpadDecode s.cfg.dpadPos := by
  rw [execExch_answered misos 0 rest h hw hlen hbus] at ht
  cases ht
  rfl

/-- Storing all 96 received bytes leaves nothing of what the buffer held before. -/
theorem storeFrom_eq_of_wf {m m' : Memory} {misos : List Byte} (h : m.wf inSize = true) (h' : m'.wf inSize = true)
    (hlen : misos.length = inSize) : storeFrom m 0 misos = storeFrom m' 0 misos := by
  have hfit : 0 + misos.length ≤ inSize := by omega
  refine Memory.eq_of_read_eq (wf_storeFrom misos h hfit) (wf_storeFrom misos h' hfit) fun a => ?_
  rw [read_storeFrom, read_storeFrom]
  split_ifs with ha
  · rfl
  · have hout : inSize ≤ a := by omega
    rw [Memory.read_outside h hout, Memory.read_outside h' hout]

/-- Settles O29: the received bytes fill IN whatever it held, and the decode reads nothing but IN. -/
theorem receivedBytesAloneDecideIn : Obligations.ReceivedBytesAloneDecideIn := by
  intro s₁ s₂ t₁ t₂ misos rest₁ rest₂ hr₁ hr₂ hw₁ hw₂ hwf₁ hwf₂ hpos hlen hbus₁ hbus₂ ht₁ ht₂
  rw [inb_of_execExch_completed hr₁ hw₁ hlen hbus₁ ht₁, inb_of_execExch_completed hr₂ hw₂ hlen hbus₂ ht₂,
    storeFrom_eq_of_wf hwf₁ hwf₂ hlen, hpos]

/-- Settles O30: EXCH is none of the commands that write OUT or RESP, and no run of beats writes them. -/
theorem exchLeavesOutAndResp : Obligations.ExchLeavesOutAndResp := by
  refine ⟨fun s t h => ?_, fun s => ?_⟩
  · obtain ⟨hout, -, hresp, -⟩ := exec_changes_only h
    exact ⟨by simpa [Instr.mnemonic] using hout, by simpa [Instr.mnemonic] using hresp⟩
  · obtain ⟨hout, hresp, -, -⟩ := runBeats_frame (inSize - s.beat) s
    exact ⟨hout, hresp⟩

end Sys2Proof.Machine
end

section
/-! PROOFS. The statements of the family spec/42_dpad_decoder.md. First the decode table, a closed function of a 4-bit code:
the set of codes of each flag, and what follows for the flags together. Then the bits of IN that the decode writes. -/

namespace Sys2Proof.Machine

/-! ### The set of codes of each flag (R123) -/

theorem dpadTable_up_iff : ∀ c : BitVec 4, (dpadTable c).up = true ↔ c.toNat ∈ [0, 1, 7] := by decide

theorem dpadTable_right_iff : ∀ c : BitVec 4, (dpadTable c).right = true ↔ c.toNat ∈ [1, 2, 3] := by decide

theorem dpadTable_down_iff : ∀ c : BitVec 4, (dpadTable c).down = true ↔ c.toNat ∈ [3, 4, 5] := by decide

theorem dpadTable_left_iff : ∀ c : BitVec 4, (dpadTable c).left = true ↔ c.toNat ∈ [5, 6, 7] := by decide

/-- Settles O32: the rows are read off the table, and the sets are the four flags' own. -/
theorem dpadDecodeTable : Obligations.DpadDecodeTable :=
  ⟨by decide, fun c => ⟨dpadTable_up_iff c, dpadTable_right_iff c, dpadTable_down_iff c, dpadTable_left_iff c⟩⟩

/-- Settles O33, code by code: both sides are closed functions of four bits. -/
theorem dpadEquationsEqualTheTable : Obligations.DpadEquationsEqualTheTable := by
  unfold Obligations.DpadEquationsEqualTheTable
  decide

/-! ### The flags together (R128) -/

/-- The number of flags that are 1. -/
def DpadFlags.count (f : DpadFlags) : Nat := f.up.toNat + f.right.toNat + f.down.toNat + f.left.toNat

/-- No two flags of opposite directions are 1. -/
def DpadFlags.NoOpposites (f : DpadFlags) : Prop := ¬(f.up = true ∧ f.down = true) ∧ ¬(f.right = true ∧ f.left = true)

theorem toNat_add_toNat_le_one {a b : Bool} (h : ¬(a = true ∧ b = true)) : a.toNat + b.toNat ≤ 1 := by
  cases a <;> cases b <;> simp_all

theorem eq_true_or_of_toNat_add_toNat_pos {a b : Bool} (h : 0 < a.toNat + b.toNat) : a = true ∨ b = true := by
  cases a <;> cases b <;> simp_all

/-- At most one flag of each of the two opposite pairs is 1. -/
theorem DpadFlags.NoOpposites.pairs_le_one {f : DpadFlags} (h : f.NoOpposites) :
    f.up.toNat + f.down.toNat ≤ 1 ∧ f.right.toNat + f.left.toNat ≤ 1 := by
  obtain ⟨hvert, hhoriz⟩ := h
  exact ⟨toNat_add_toNat_le_one hvert, toNat_add_toNat_le_one hhoriz⟩

theorem DpadFlags.NoOpposites.count_le_two {f : DpadFlags} (h : f.NoOpposites) : f.count ≤ 2 := by
  obtain ⟨hvert, hhoriz⟩ := h.pairs_le_one
  unfold DpadFlags.count
  omega

/-- Two flags that are 1 are one of each pair, and any such choice is adjacent. -/
theorem DpadFlags.NoOpposites.adjacent {f : DpadFlags} (h : f.NoOpposites) (h2 : f.count = 2) :
    (f.up && f.right) || (f.right && f.down) || (f.down && f.left) || (f.left && f.up) := by
  obtain ⟨hvert, hhoriz⟩ := h.pairs_le_one
  unfold DpadFlags.count at h2
  have hv : f.up = true ∨ f.down = true := eq_true_or_of_toNat_add_toNat_pos (by omega)
  have hh : f.right = true ∨ f.left = true := eq_true_or_of_toNat_add_toNat_pos (by omega)
  rcases hv with hv | hv <;> rcases hh with hh | hh <;> simp [hv, hh]

/-- The sets of opposite directions have no code in common. -/
theorem dpadTable_noOpposites (c : BitVec 4) : (dpadTable c).NoOpposites := by
  simp only [DpadFlags.NoOpposites, dpadTable_up_iff, dpadTable_down_iff, dpadTable_right_iff, dpadTable_left_iff,
    List.mem_cons, List.not_mem_nil, or_false]
  omega

theorem dpadTable_count_eq_zero_iff : ∀ c : BitVec 4, (dpadTable c).count = 0 ↔ 8 ≤ c.toNat := by decide

theorem dpadTable_eq_up_alone_iff : ∀ c : BitVec 4, dpadTable c = ⟨true, false, false, false⟩ ↔ c = 0 := by decide

/-- Settles O34: without opposite flags, at most two are 1 and two are adjacent. -/
theorem decodedFlagProperties : Obligations.DecodedFlagProperties := by
  intro c
  have h := dpadTable_noOpposites c
  obtain ⟨hvert, hhoriz⟩ := dpadTable_noOpposites c
  exact ⟨h.count_le_two, h.adjacent, hvert, hhoriz, dpadTable_count_eq_zero_iff c, dpadTable_eq_up_alone_iff c⟩

/-! ### Decoding an output code (R127) -/

/-- The codes 2 and 4 are the fixed points of the output code column. -/
theorem dpadTable_code_eq_self_iff : ∀ c : BitVec 4, (dpadTable c).code = c ↔ c = 2 ∨ c = 4 := by decide

/-- Only a fixed point decodes to the same flags again. -/
theorem dpadTable_code_eq_self_of_same_flags :
    ∀ c : BitVec 4, dpadTable (dpadTable c).code = dpadTable c → (dpadTable c).code = c := by decide

/-- Settles O36: a code whose flags stay the same is a fixed point of the output code column, and those are 2 and 4. -/
theorem decodingTwiceDiffers : Obligations.DecodingTwiceDiffers := fun c =>
  have hsame : dpadTable (dpadTable c).code = dpadTable c ↔ (dpadTable c).code = c :=
    ⟨dpadTable_code_eq_self_of_same_flags c, congrArg dpadTable⟩
  ⟨hsame.trans (dpadTable_code_eq_self_iff c), dpadTable_code_eq_self_iff c⟩

/-! ### The bits of IN that the decode writes (R124) -/

theorem Memory.readBit_writeBit_of_ne {m : Memory} {p q : InBit} {v : Bool} (h : q ≠ p) :
    (m.writeBit p v).readBit q = m.readBit q := by
  rw [Memory.readBit_writeBit, if_neg h]

/-- A bit of a written byte takes the value written to it. -/
theorem Memory.readBit_writeBit_same {m : Memory} {p : InBit} {b v : Bool} (h : m.readBit p = some b) :
    (m.writeBit p v).readBit p = some v := by
  rw [Memory.readBit_writeBit, if_pos rfl, h, Option.map_some]

/-- The decode changes no bit but the four of DPAD_POS. -/
theorem Memory.readBit_dpadDecode_of_notMem {m : Memory} {p : DpadPos} {q : InBit} (h : q ∉ p.positions) :
    (m.dpadDecode p).readBit q = m.readBit q := by
  simp only [DpadPos.positions, List.mem_cons, List.not_mem_nil, or_false, not_or] at h
  obtain ⟨hu, hr, hd, hl⟩ := h
  unfold Memory.dpadDecode
  cases m.rawCode p with
  | none => rfl
  | some c =>
    simp only
    rw [Memory.readBit_writeBit_of_ne hl, Memory.readBit_writeBit_of_ne hd, Memory.readBit_writeBit_of_ne hr,
      Memory.readBit_writeBit_of_ne hu]

/-- Where the four bits are written, the decode is four writes of the flags of their code, taken before any write. -/
theorem Memory.dpadDecode_of_bits {m : Memory} {p : DpadPos} {u r d l : Bool} (hu : m.readBit p.up = some u)
    (hr : m.readBit p.right = some r) (hd : m.readBit p.down = some d) (hl : m.readBit p.left = some l) :
    m.dpadDecode p =
      (((m.writeBit p.up (dpadTable (directionCode u r d l)).up).writeBit p.right
        (dpadTable (directionCode u r d l)).right).writeBit p.down (dpadTable (directionCode u r d l)).down).writeBit
        p.left (dpadTable (directionCode u r d l)).left := by
  simp only [Memory.dpadDecode, Memory.rawCode, hu, hr, hd, hl]

/-- Settles O35: of the four writes, each sets its own position and no later one touches it. -/
theorem dpadDecodeRewritesFourBits : Obligations.DpadDecodeRewritesFourBits := by
  intro m p u r d l hdistinct hu hr hd hl f
  have hframe : ∀ q, q ∉ p.positions → (m.dpadDecode p).readBit q = m.readBit q :=
    fun _ => Memory.readBit_dpadDecode_of_notMem
  have hbytes : ∀ a, a ∉ p.positions.map (fun q => q.byte.val) → (m.dpadDecode p).read a = m.read a :=
    fun a ha => Memory.read_dpadDecode_of_ne fun q hq h => ha (List.mem_map.mpr ⟨q, hq, h.symm⟩)
  simp only [DpadPos.positions, List.nodup_cons, List.mem_cons, List.not_mem_nil, or_false, not_or] at hdistinct
  obtain ⟨⟨hur, hud, hul⟩, ⟨hrd, hrl⟩, hdl, -⟩ := hdistinct
  refine ⟨?up, ?right, ?down, ?left, hframe, hbytes⟩ <;> rw [Memory.dpadDecode_of_bits hu hr hd hl]
  case up =>
    rw [Memory.readBit_writeBit_of_ne hul, Memory.readBit_writeBit_of_ne hud, Memory.readBit_writeBit_of_ne hur,
      Memory.readBit_writeBit_same hu]
  case right =>
    rw [Memory.readBit_writeBit_of_ne hrl, Memory.readBit_writeBit_of_ne hrd]
    exact Memory.readBit_writeBit_same (by rwa [Memory.readBit_writeBit_of_ne (Ne.symm hur)])
  case down =>
    rw [Memory.readBit_writeBit_of_ne hdl]
    exact Memory.readBit_writeBit_same
      (by rwa [Memory.readBit_writeBit_of_ne (Ne.symm hrd), Memory.readBit_writeBit_of_ne (Ne.symm hud)])
  case left =>
    exact Memory.readBit_writeBit_same
      (by rwa [Memory.readBit_writeBit_of_ne (Ne.symm hdl), Memory.readBit_writeBit_of_ne (Ne.symm hrl),
        Memory.readBit_writeBit_of_ne (Ne.symm hul)])

end Sys2Proof.Machine
end

section
/-! PROOFS. The statements of the family spec/43_setled.md: what the five writes of SETLED leave in OUT, and that none of
their indices holds an override flag. -/

namespace Sys2Proof

/-- No LED index holds an override flag (spec/60_exceptions.md R163, clause 4). -/
theorem Config.overrideFlag_notMem_ledOff {c : Config} (h : c.wf = true) {f : NamedField}
    (hf : f ∈ c.fieldMap.fields) {byte bit : Nat} (hflag : f.shape = .overrideFlag byte bit) :
    byte ∉ c.ledOff.indices.map Fin.val := by
  obtain ⟨-, -, hnoflag, -⟩ := c.wf_iff.mp h
  simp only [SiteParams.ledHoldsNoFlag, List.all_eq_true] at hnoflag
  intro hmem
  obtain ⟨i, hi, rfl⟩ := List.mem_map.mp hmem
  simpa [hflag, FieldShape.isFlagIn] using hnoflag f hf i hi

end Sys2Proof

namespace Sys2Proof.Machine

/-- OUT after the five writes of SETLED, in its order (spec/43_setled.md R140). -/
def Memory.writeLed (m : Memory) (l : LedOff) (r g b on off : Byte) : Memory :=
  ((((m.write l.r.val r).write l.g.val g).write l.b.val b).write l.on.val on).write l.off.val off

/-- SETLED on a ready block is its five writes into OUT. -/
theorem exec_setled {s : State} (h : s.Ready) (r g b on off : BitVec 8) :
    exec (.setled r g b on off) s = .next { s with out := s.out.writeLed s.cfg.ledOff r g b on off } :=
  guarded_ready h

/-- The five writes change no byte but those at the LED indices. -/
theorem Memory.read_writeLed_of_notMem (m : Memory) {l : LedOff} {a : Nat} (h : a ∉ l.indices.map Fin.val)
    (r g b on off : Byte) : (m.writeLed l r g b on off).read a = m.read a := by
  simp only [LedOff.indices, List.map_cons, List.map_nil, List.mem_cons, List.not_mem_nil, or_false, not_or] at h
  obtain ⟨hr, hg, hb, hon, hoff⟩ := h
  rw [Memory.writeLed, Memory.read_write_of_ne _ _ hoff, Memory.read_write_of_ne _ _ hon,
    Memory.read_write_of_ne _ _ hb, Memory.read_write_of_ne _ _ hg, Memory.read_write_of_ne _ _ hr]

/-- At distinct LED indices no write undoes an earlier one, so each byte holds its own operand. -/
theorem Memory.read_writeLed (m : Memory) {l : LedOff} (h : l.indices.Nodup) (r g b on off : Byte) :
    (m.writeLed l r g b on off).read l.r.val = some r ∧ (m.writeLed l r g b on off).read l.g.val = some g ∧
      (m.writeLed l r g b on off).read l.b.val = some b ∧ (m.writeLed l r g b on off).read l.on.val = some on ∧
      (m.writeLed l r g b on off).read l.off.val = some off := by
  simp only [LedOff.indices, List.nodup_cons, List.mem_cons, List.not_mem_nil, or_false, not_or] at h
  obtain ⟨⟨hrg, hrb, hron, hroff⟩, ⟨hgb, hgon, hgoff⟩, ⟨hbon, hboff⟩, honoff, -⟩ := h
  have hlater {i j : Fin outSize} (hij : i ≠ j) (m' : Memory) (v : Byte) :
      (m'.write j.val v).read i.val = m'.read i.val := m'.read_write_of_ne v (Fin.val_ne_of_ne hij)
  unfold Memory.writeLed
  refine ⟨?_, ?_, ?_, ?_, Memory.read_write_same ..⟩
  · rw [hlater hroff, hlater hron, hlater hrb, hlater hrg, Memory.read_write_same]
  · rw [hlater hgoff, hlater hgon, hlater hgb, Memory.read_write_same]
  · rw [hlater hboff, hlater hbon, Memory.read_write_same]
  · rw [hlater honoff, Memory.read_write_same]

/-- Settles O22: the command is its five writes into OUT, at indices that a well-formed configuration keeps distinct. -/
theorem setledWritesItsFiveBytes : Obligations.SetledWritesItsFiveBytes := by
  intro r g b on off s h hwf
  obtain ⟨hr, hg, hb, hon, hoff⟩ := s.out.read_writeLed (Config.ledOff_nodup hwf) r g b on off
  exact ⟨_, exec_setled h r g b on off, rfl, hr, hg, hb, hon, hoff,
    fun _ ha => s.out.read_writeLed_of_notMem ha r g b on off⟩

/-- Settles O23: the byte of an override flag is none of the five that the command writes. -/
theorem setledLeavesOverrideFlags : Obligations.SetledLeavesOverrideFlags := fun r g b on off s h hwf =>
  ⟨_, exec_setled h r g b on off, fun _ hf _ _ hflag =>
    s.out.read_writeLed_of_notMem (Config.overrideFlag_notMem_ledOff hwf hf hflag) r g b on off⟩

end Sys2Proof.Machine
end

section
/-! PROOFS. The statements of the family spec/60_exceptions.md: when a command or a word that arrives records a fault, which
record it leaves, and which arguments build a block or several. First the answer to each cause of a fault, one lemma a cause;
then that there is no other cause; then the check of a configuration, clause by clause; then several instances. -/

namespace Sys2Proof.Machine

/-! ### The answer to each cause -/

/-- Every command makes the entry checks with its own word. -/
theorem exec_eq_guarded (i : Instr) (s : State) : ∃ body, exec i s = guarded (encode i) s body := by
  cases i <;> exact ⟨_, rfl⟩

/-- A faulted block executes no command. -/
theorem exec_halted {s : State} {r : FaultRecord} (h : s.fault = some r) (i : Instr) :
    exec i s = .fault (.halted r) := by
  obtain ⟨body, hbody⟩ := exec_eq_guarded i s
  rw [hbody, guarded_halted h]

/-- A faulted block takes no step. -/
theorem step_halted {s : State} {r : FaultRecord} (h : s.fault = some r) : step s = .fault (.halted r) := by
  simp [step, fetch, h]

/-- Any command during a transaction raises Overlap. -/
theorem exec_overlap {s : State} (hf : s.fault = none) (hp : s.phase = .transacting) (i : Instr) :
    exec i s = .next (s.raise .overlap (encode i) none) := by
  obtain ⟨body, hbody⟩ := exec_eq_guarded i s
  rw [hbody, guarded_overlap hf hp]

/-- RDS at an index outside its space, whatever the buffers hold. -/
theorem exec_readCmd_outside {sp : Space} {a : BitVec 8} {s : State} (h : s.Ready) (ha : sp.size ≤ a.toNat) :
    exec (readCmd sp a) s = .next (s.raise .indexOutOfRange (encode (readCmd sp a)) (some a.toNat)) := by
  cases sp with
  | out =>
    simp only [readCmd, exec, execRdout]
    rw [guarded_ready h, atIndex_ge ha]
  | inb =>
    simp only [readCmd, exec, execRdin]
    rw [guarded_ready h, atIndex_ge ha]

/-- WRS at an index outside its space. -/
theorem exec_writeCmd_outside {sp : Space} {a : BitVec 8} {s : State} (h : s.Ready) (ha : sp.size ≤ a.toNat)
    (v : BitVec 8) :
    exec (writeCmd sp a v) s = .next (s.raise .indexOutOfRange (encode (writeCmd sp a v)) (some a.toNat)) := by
  cases sp with
  | out =>
    simp only [writeCmd, exec, execWrout]
    rw [guarded_ready h, atIndex_ge ha]
  | inb =>
    simp only [writeCmd, exec, execWrin]
    rw [guarded_ready h, atIndex_ge ha]

/-- Index `i` holds the lowest unwritten byte of OUT, the one EXCH reports (spec/41_transfer.md R100). -/
def State.LowestUnwrittenOut (s : State) (i : Nat) : Prop :=
  i < outSize ∧ s.out.read i = none ∧ ∀ j, j < i → s.out.read j ≠ none

theorem State.lowestUnwrittenOut_iff {s : State} {i : Nat} :
    s.LowestUnwrittenOut i ↔ s.out.lowestUnwritten 0 outSize = some i := by
  constructor
  · rintro ⟨hi, hnone, hbelow⟩
    exact Memory.lowestUnwritten_eq_some (Nat.zero_le i) (by omega) hnone fun j _ hj => hbelow j hj
  · intro h
    obtain ⟨-, hi, hnone, hbelow⟩ := Memory.of_lowestUnwritten_eq_some h
    exact ⟨by omega, hnone, fun j hj => hbelow j (Nat.zero_le j) hj⟩

/-- EXCH with an unwritten byte of OUT reports the lowest one. -/
theorem exec_exch_unwritten {s : State} {i : Nat} (h : s.Ready) (hi : s.LowestUnwrittenOut i) :
    exec .exch s = .next (s.raise .unwrittenRead (encode .exch) (some i)) := by
  obtain ⟨k, hk, he⟩ | ⟨hw, -⟩ := execExch_ready h
  · obtain rfl : k = i := Option.some.inj (hk.symm.trans (State.lowestUnwrittenOut_iff.mp hi))
    exact he
  · obtain ⟨hlt, hnone, -⟩ := hi
    exact absurd hnone (hw i hlt)

/-- Settles O12: the entry checks come before the command's own effect, and the fault they record stops the block. -/
theorem commandDuringTransactionRaisesOverlap : Obligations.CommandDuringTransactionRaisesOverlap :=
  fun i _ hf hp => ⟨exec_overlap hf hp i, step_halted rfl⟩

/-- Settles O13: each check's answer, under the hypothesis that the checks before it pass. -/
theorem faultPriorityOrder : Obligations.FaultPriorityOrder :=
  ⟨fun _ _ _ hf => step_halted hf, fun _ _ _ hf hd => step_issueNext_illegal hd hf, fun _ i hf hp => exec_overlap hf hp i,
    fun _ _ h => ⟨exec_readCmd_outside (sp := .out) h, exec_readCmd_outside (sp := .inb) h⟩,
    fun _ _ h hi hnone hbelow => exec_exch_unwritten h ⟨hi, hnone, hbelow⟩⟩

/-- Settles O18: the four byte commands are WRS and RDS in OUT and in IN. -/
theorem indexOutsideItsSpaceFaults : Obligations.IndexOutsideItsSpaceFaults := fun _ data _ h =>
  ⟨fun ho => ⟨exec_writeCmd_outside (sp := .out) h ho data, exec_readCmd_outside (sp := .out) h ho⟩,
    fun hi => ⟨exec_writeCmd_outside (sp := .inb) h hi data, exec_readCmd_outside (sp := .inb) h hi⟩⟩

/-- Settles O19: the commands that use a byte's value are RDS in either space and EXCH. -/
theorem unwrittenByteFaults : Obligations.UnwrittenByteFaults := fun _ h =>
  ⟨fun _ => exec_readCmd_unwritten (sp := .out) h, fun _ => exec_readCmd_unwritten (sp := .inb) h,
    fun _ hi hnone hbelow => exec_exch_unwritten h ⟨hi, hnone, hbelow⟩⟩

/-- What a raise records. -/
theorem records_raise (s : State) (c : FaultCode) (w : Cmd) (x : Option Nat) :
    Records (.next (s.raise c w x)) c.number w x := ⟨_, _, rfl, rfl, rfl, rfl, rfl⟩

/-- Settles O56: each cause is answered by raising its code. -/
theorem faultRecordsFollowTheTable : Obligations.FaultRecordsFollowTheTable := by
  refine ⟨fun w why s hd hf => ?_, fun sp idx v s h hi => ⟨?_, ?_⟩, fun sp idx s h hi hnone => ?_,
    fun s i h hi hnone hbelow => ?_, fun i s hf hp => ?_⟩
  · rw [step_issueNext_illegal hd hf]; exact records_raise ..
  · rw [exec_readCmd_outside h hi]; exact records_raise ..
  · rw [exec_writeCmd_outside h hi]; exact records_raise ..
  · rw [exec_readCmd_unwritten h hi hnone]; exact records_raise ..
  · rw [exec_exch_unwritten h ⟨hi, hnone, hbelow⟩]; exact records_raise ..
  · rw [exec_overlap hf hp]; exact records_raise ..

/-! ### No other cause -/

/-- A command that answers a next state either raises, with its own word, or leaves the block without a fault. -/
theorem exec_raises_or_fault_none {i : Instr} {s t : State} (h : exec i s = .next t) :
    (∃ c x, t = s.raise c (encode i) x) ∨ t.fault = none := by
  obtain hraise | ⟨hr, hwrout | hwrin | hrdout | hrdin | hexch | hsetled⟩ := exec_cases h
  · exact .inl hraise
  all_goals refine .inr ?_
  · obtain ⟨idx, d, -, -, rfl⟩ := hwrout
    exact hr.1
  · obtain ⟨idx, d, -, -, rfl⟩ := hwrin
    exact hr.1
  · obtain ⟨idx, b, -, rfl⟩ := hrdout
    exact hr.1
  · obtain ⟨idx, b, -, rfl⟩ := hrdin
    exact hr.1
  · obtain ⟨-, hw, rfl⟩ := hexch
    exact (runBeats_fault _ (State.outWritten_beginTransaction hw)).trans hr.1
  · obtain ⟨r, g, b, on, off, -, rfl⟩ := hsetled
    exact hr.1

/-- A block that was built is in the reset state of the configuration its arguments give. -/
theorem State.build_eq_next {a : BuildArgs} {s : State} (h : State.build a = .next s) :
    ∃ c, a.config? = some c ∧ s = State.resetWith c := by
  unfold State.build at h
  cases hc : a.config? with
  | none => simp [hc] at h
  | some c =>
    rw [hc] at h
    exact ⟨c, rfl, (Host.Outcome.next.inj h).symm⟩

/-- Settles O11: a next state with a fault is a raise, by a command or of an illegal word, and a set FAULT answers halted. -/
theorem faultIsPreciseAndSticky : Obligations.FaultIsPreciseAndSticky := by
  refine ⟨fun i s t h hfault => ?_, fun w why s hd hf => step_issueNext_illegal hd hf,
    fun s r hf => ⟨step_halted hf, exec_halted hf⟩, fun a s h => ?_⟩
  · obtain ⟨c, x, rfl⟩ | hnone := exec_raises_or_fault_none h
    · exact ⟨c, x, rfl, rfl⟩
    · exact absurd hnone hfault
  · obtain ⟨c, -, rfl⟩ := State.build_eq_next h
    rfl

/-- RDS on a ready block records a fault only at an index outside its space or at an unwritten byte. -/
theorem exec_readCmd_cause {sp : Space} {a : BitVec 8} {s t : State} {r : FaultRecord} (h : s.Ready)
    (ht : exec (readCmd sp a) s = .next t) (hr : t.fault = some r) :
    (r.code = .indexOutOfRange ∧ sp.size ≤ a.toNat) ∨
      (r.code = .unwrittenRead ∧ a.toNat < sp.size ∧ (s.mem sp).read a.toNat = none) := by
  by_cases ha : a.toNat < sp.size
  · cases hv : (s.mem sp).read a.toNat with
    | some v =>
      rw [exec_readCmd h ha hv] at ht
      cases ht
      cases h.1.symm.trans hr
    | none =>
      rw [exec_readCmd_unwritten h ha hv] at ht
      cases ht
      cases hr
      exact .inr ⟨rfl, ha, rfl⟩
  · rw [exec_readCmd_outside h (Nat.not_lt.mp ha)] at ht
    cases ht
    cases hr
    exact .inl ⟨rfl, Nat.not_lt.mp ha⟩

/-- WRS on a ready block records a fault only at an index outside its space. -/
theorem exec_writeCmd_cause {sp : Space} {a v : BitVec 8} {s t : State} {r : FaultRecord} (h : s.Ready)
    (ht : exec (writeCmd sp a v) s = .next t) (hr : t.fault = some r) :
    r.code = .indexOutOfRange ∧ sp.size ≤ a.toNat := by
  by_cases ha : a.toNat < sp.size
  · rw [exec_writeCmd h ha] at ht
    cases ht
    cases (State.ready_writeByte h).1.symm.trans hr
  · rw [exec_writeCmd_outside h (Nat.not_lt.mp ha)] at ht
    cases ht
    cases hr
    exact ⟨rfl, Nat.not_lt.mp ha⟩

/-- EXCH on a ready block records a fault only for the lowest unwritten byte of OUT. -/
theorem exec_exch_cause {s t : State} {r : FaultRecord} (h : s.Ready) (ht : exec .exch s = .next t)
    (hr : t.fault = some r) : r.code = .unwrittenRead ∧ ∃ i, r.index = some i ∧ s.LowestUnwrittenOut i := by
  obtain ⟨i, hi, he⟩ | ⟨hw, he⟩ := execExch_ready h <;> cases he.symm.trans ht
  · cases hr
    exact ⟨rfl, i, rfl, State.lowestUnwrittenOut_iff.mpr hi⟩
  · rw [runBeats_fault _ (State.outWritten_beginTransaction hw), State.beginTransaction_fault, h.1] at hr
    cases hr

/-- Every command is RDS or WRS in one of the spaces, EXCH, or SETLED. -/
theorem instr_kinds (i : Instr) :
    (∃ sp a, i = readCmd sp a) ∨ (∃ sp a v, i = writeCmd sp a v) ∨ i = .exch ∨
      ∃ r g b on off, i = .setled r g b on off := by
  cases i with
  | wrout idx data => exact .inr (.inl ⟨.out, idx, data, rfl⟩)
  | rdout idx => exact .inl ⟨.out, idx, rfl⟩
  | wrin idx data => exact .inr (.inl ⟨.inb, idx, data, rfl⟩)
  | rdin idx => exact .inl ⟨.inb, idx, rfl⟩
  | exch => exact .inr (.inr (.inl rfl))
  | setled r g b on off => exact .inr (.inr (.inr ⟨r, g, b, on, off, rfl⟩))

/-- Settles O57: the entry checks raise Overlap only, and on a ready block each kind of command has its own causes; SETLED
has none. -/
theorem commandsFaultOnlyForTheirCauses : Obligations.CommandsFaultOnlyForTheirCauses := by
  intro i s t r ht hr
  obtain ⟨body, hbody⟩ := exec_eq_guarded i s
  obtain ⟨-, hp, rfl⟩ | ⟨h, -⟩ := guarded_eq_next (hbody.symm.trans ht)
  · cases hr
    exact .inl ⟨rfl, hp⟩
  obtain ⟨sp, a, rfl⟩ | ⟨sp, a, v, rfl⟩ | rfl | ⟨r', g, b, on, off, rfl⟩ := instr_kinds i
  · obtain ⟨hc, ha⟩ | ⟨hc, ha, hnone⟩ := exec_readCmd_cause h ht hr
    · exact .inr (.inl ⟨congrArg FaultCode.number hc, h.2, sp, a, ha, .inl rfl⟩)
    · exact .inr (.inr (.inl ⟨congrArg FaultCode.number hc, h.2, sp, a, ha, hnone, rfl⟩))
  · obtain ⟨hc, ha⟩ := exec_writeCmd_cause h ht hr
    exact .inr (.inl ⟨congrArg FaultCode.number hc, h.2, sp, a, ha, .inr ⟨v, rfl⟩⟩)
  · obtain ⟨hc, k, hindex, hlowest⟩ := exec_exch_cause h ht hr
    exact .inr (.inr (.inr ⟨congrArg FaultCode.number hc, h.2, rfl, k, hindex, hlowest⟩))
  · cases (exec_setled h r' g b on off).symm.trans ht
    cases h.1.symm.trans hr

end Sys2Proof.Machine

namespace Sys2Proof

/-! ### The configuration check -/

theorem toFin?_eq_some_iff {n k : Nat} {x : Fin n} : toFin? n k = some x ↔ x.val = k :=
  ⟨val_of_toFin?, fun h => h ▸ toFin?_of_lt x.isLt⟩

/-- A bit position as the pair of numbers a builder writes. -/
def InBit.numbers (q : InBit) : Nat × Nat := (q.byte.val, q.bit.val)

theorem InBit.numbers_injective : Function.Injective InBit.numbers := by
  rintro ⟨byte, bit⟩ ⟨byte', bit'⟩ h
  simpa [numbers, Fin.ext_iff] using h

theorem toInBit?_eq_some_iff {p : Nat × Nat} {q : InBit} : toInBit? p = some q ↔ q.numbers = p := by
  obtain ⟨b, n⟩ := p
  obtain ⟨byte, bit⟩ := q
  simp [toInBit?, Option.bind_eq_some_iff, toFin?_eq_some_iff, InBit.numbers]

/-- The positions a builder writes for DPAD_POS, in the order up, right, down, left. -/
def BuildArgs.dpad (a : BuildArgs) : List (Nat × Nat) := [a.dpadUp, a.dpadRight, a.dpadDown, a.dpadLeft]

/-- The indices a builder writes for LED_OFF, in the order r, g, b, on, off. -/
def BuildArgs.led (a : BuildArgs) : List Nat := [a.ledR, a.ledG, a.ledB, a.ledOn, a.ledOff]

/-- The configuration has the values that the builder's arguments write down. -/
structure BuildArgs.Names (a : BuildArgs) (c : Config) : Prop where
  selId : c.selId = a.selId
  leadLen : c.leadLen.val = a.leadLen
  fieldMap : c.fieldMap = a.fieldMap
  touchValidActive : c.touchValidActive = a.touchValidActive
  pwOrder : c.pwOrder = a.pwOrder
  touchLayout : c.touchLayout = a.touchLayout
  bufReset : c.bufReset = a.bufReset
  dpad : c.dpadPos.positions.map InBit.numbers = a.dpad
  led : c.ledOff.indices.map Fin.val = a.led

theorem Machine.NatPos.exists_numbers_eq {p : Nat × Nat} (h : Machine.NatPos p) : ∃ q : InBit, q.numbers = p :=
  ⟨⟨⟨p.1, h.1⟩, ⟨p.2, h.2⟩⟩, rfl⟩

/-- Arguments whose numbers are in range name a configuration (spec/60_exceptions.md R163, clauses 1 to 3). -/
theorem Machine.LegalArgs.exists_names {a : BuildArgs} (h : Machine.LegalArgs a) : ∃ c, a.Names c := by
  obtain ⟨hup, hright, hdown, hleft⟩ := h.dpadInRange
  obtain ⟨up, hup⟩ := hup.exists_numbers_eq
  obtain ⟨right, hright⟩ := hright.exists_numbers_eq
  obtain ⟨down, hdown⟩ := hdown.exists_numbers_eq
  obtain ⟨left, hleft⟩ := hleft.exists_numbers_eq
  have hled : ∀ o ∈ a.led, o < outSize := fun o ho => Nat.lt_succ_of_le (h.ledInRange o ho)
  simp only [BuildArgs.led, List.forall_mem_cons] at hled
  obtain ⟨hr, hg, hb, hon, hoff, -⟩ := hled
  refine ⟨{ selId := a.selId, dpadPos := ⟨up, right, down, left⟩,
            ledOff := ⟨⟨_, hr⟩, ⟨_, hg⟩, ⟨_, hb⟩, ⟨_, hon⟩, ⟨_, hoff⟩⟩, fieldMap := a.fieldMap,
            leadLen := ⟨a.leadLen, Nat.lt_succ_of_le h.leadLen⟩, touchValidActive := a.touchValidActive,
            pwOrder := a.pwOrder, touchLayout := a.touchLayout, bufReset := a.bufReset },
    rfl, rfl, rfl, rfl, rfl, rfl, rfl, ?_, rfl⟩
  simp [DpadPos.positions, BuildArgs.dpad, hup, hright, hdown, hleft]

/-- The arguments give exactly the configuration they name, if it passes the check. -/
theorem BuildArgs.config?_eq_some_iff {a : BuildArgs} {c : Config} :
    a.config? = some c ↔ a.Names c ∧ c.wf = true := by
  constructor
  · intro h
    simp only [BuildArgs.config?, bind, Option.bind_eq_some_iff, toFin?_eq_some_iff, toInBit?_eq_some_iff] at h
    obtain ⟨up, hup, right, hright, down, hdown, left, hleft, r, hr, g, hg, b, hb, on, hon, off, hoff, lead, hlead, h⟩ := h
    split_ifs at h with hwf
    cases h
    refine ⟨⟨rfl, hlead, rfl, rfl, rfl, rfl, rfl, ?_, ?_⟩, hwf⟩
    · simp [DpadPos.positions, BuildArgs.dpad, hup, hright, hdown, hleft]
    · simp [LedOff.indices, BuildArgs.led, hr, hg, hb, hon, hoff]
  · rintro ⟨h, hwf⟩
    have hdpad := h.dpad
    have hled := h.led
    simp only [DpadPos.positions, BuildArgs.dpad, List.map_cons, List.map_nil, List.cons.injEq, and_true,
      ← toInBit?_eq_some_iff] at hdpad
    simp only [LedOff.indices, BuildArgs.led, List.map_cons, List.map_nil, List.cons.injEq, and_true,
      ← toFin?_eq_some_iff] at hled
    obtain ⟨hup, hright, hdown, hleft⟩ := hdpad
    obtain ⟨hr, hg, hb, hon, hoff⟩ := hled
    simp only [BuildArgs.config?, bind, hup, hright, hdown, hleft, hr, hg, hb, hon, hoff,
      toFin?_eq_some_iff.mpr h.leadLen, ← h.selId, ← h.fieldMap, ← h.touchValidActive, ← h.pwOrder, ← h.touchLayout,
      ← h.bufReset, Option.bind_some]
    exact if_pos hwf

section
variable {a : BuildArgs} {c : Config}

/-- Clause 2 of spec/60_exceptions.md R163. -/
theorem BuildArgs.Names.dpadOk_iff (h : a.Names c) : c.dpadOk = true ↔ a.dpad.Nodup ∧
    ∀ r ∈ a.fieldMap.regions, r.id = .buttons → ∀ p ∈ a.dpad, r.start ≤ p.1 ∧ p.1 < r.start + r.size := by
  rw [← h.dpad, ← h.fieldMap, List.nodup_map_iff InBit.numbers_injective]
  simp only [SiteParams.dpadOk, Bool.and_eq_true, pairwiseBool_iff, List.Nodup, List.all_eq_true, Bool.or_eq_true,
    bne_iff_ne, or_iff_not_imp_left, not_not, decide_eq_true_eq, List.forall_mem_map, InBit.numbers]

/-- Clause 3 of spec/60_exceptions.md R163. -/
theorem BuildArgs.Names.ledDistinct_iff (h : a.Names c) : c.ledDistinct = true ↔ a.led.Nodup := by
  rw [← h.led, List.nodup_map_iff Fin.val_injective]
  simp [SiteParams.ledDistinct, pairwiseBool_iff, List.Nodup]

theorem FieldShape.isFlagIn_eq_true_iff {b : Nat} {f : FieldShape} :
    f.isFlagIn b = true ↔ ∃ n, f = .overrideFlag b n := by
  cases f <;> simp [FieldShape.isFlagIn]

/-- Clause 4 of spec/60_exceptions.md R163. -/
theorem BuildArgs.Names.ledHoldsNoFlag_iff (h : a.Names c) : c.ledHoldsNoFlag = true ↔
    ∀ f ∈ a.fieldMap.fields, ∀ b n, f.shape = .overrideFlag b n → b ∉ a.led := by
  rw [← h.led, ← h.fieldMap]
  simp only [SiteParams.ledHoldsNoFlag, List.all_eq_true, Bool.not_eq_true', ← Bool.not_eq_true,
    FieldShape.isFlagIn_eq_true_iff, not_exists]
  constructor
  · intro hno f hf b n hflag hb
    obtain ⟨i, hi, rfl⟩ := List.mem_map.mp hb
    exact hno f hf i hi n hflag
  · exact fun hno f hf i hi n hflag => hno f hf i.val n hflag (List.mem_map_of_mem hi)

/-- Clause 5 of spec/60_exceptions.md R163, with every other field and region in range too (log 11). -/
theorem BuildArgs.Names.fieldsInRange_iff (h : a.Names c) : c.fieldsInRange = true ↔
    (∀ f ∈ a.fieldMap.fields, ∀ q ∈ f.shape.bits, q.1 < f.shape.space.size ∧ q.2 < 8) ∧
      ∀ r ∈ a.fieldMap.regions, r.start + r.size ≤ inSize := by
  rw [← h.fieldMap]
  simp only [SiteParams.fieldsInRange, Bool.and_eq_true, List.all_eq_true, FieldShape.inRange_iff, decide_eq_true_eq]

/-- Every region of FIELD_MAP comes after the leading one. -/
theorem RegionId.one_lt_rank (i : RegionId) : 1 < i.rank := by cases i <;> decide

/-- Clause 6 of spec/60_exceptions.md R163, with the leading region at 0 (log 10). -/
theorem BuildArgs.Names.regionsRise_iff (h : a.Names c) : c.regionsRise = true ↔
    (a.fieldMap.regions.Pairwise fun r q =>
      (r.id.rank < q.id.rank ∧ r.start < q.start) ∨ (q.id.rank < r.id.rank ∧ q.start < r.start)) ∧
    (0 < a.leadLen → ∀ r ∈ a.fieldMap.regions, 0 < r.start) := by
  rw [← h.fieldMap, ← h.leadLen]
  have hnot (i : RegionId) : ¬i.rank < 1 := i.one_lt_rank.not_gt
  rw [SiteParams.regionsRise, pairwiseBool_iff, SiteParams.regionStarts, List.pairwise_append, List.pairwise_map]
  by_cases hl : c.leadLen.val = 0
  · simp [hl]
  · simp [hl, hnot, RegionId.one_lt_rank, Nat.pos_iff_ne_zero]

/-- The sizes of spec/20_memory.md R52 (log 31). -/
theorem BuildArgs.Names.regionSizes_iff (h : a.Names c) : c.regionSizes = true ↔
    ∀ r ∈ a.fieldMap.regions, (r.id = .sticks → r.size = 4) ∧ (r.id = .triggers → r.size = 2) ∧
      (r.id = .inertial → r.size = 12) ∧ (r.id = .touchpad → 8 ≤ r.size) := by
  rw [← h.fieldMap]
  simp only [SiteParams.regionSizes, List.all_eq_true, Region.sizeOk_iff]

/-- Clause 7 of spec/60_exceptions.md R163. -/
theorem BuildArgs.Names.fieldsDisjoint_iff (h : a.Names c) : c.fieldsDisjoint = true ↔
    a.fieldMap.fields.Pairwise fun f g =>
      f.shape.space = g.shape.space → ∀ q ∈ f.shape.bits, q ∉ g.shape.bits := by
  rw [← h.fieldMap]
  simp only [SiteParams.fieldsDisjoint, pairwiseBool_iff, FieldShape.disjoint_iff]

/-- The numbers of a configuration are in range by its types (spec/60_exceptions.md R163, clauses 1 to 3). -/
theorem BuildArgs.Names.inRange (h : a.Names c) :
    a.leadLen ≤ 95 ∧ (∀ p ∈ a.dpad, Machine.NatPos p) ∧ ∀ o ∈ a.led, o ≤ 38 := by
  rw [← h.leadLen, ← h.dpad, ← h.led, List.forall_mem_map, List.forall_mem_map]
  exact ⟨Nat.le_of_lt_succ c.leadLen.isLt, fun q _ => ⟨q.byte.isLt, q.bit.isLt⟩, fun i _ => Nat.le_of_lt_succ i.isLt⟩

/-- The check of a configuration is the check of the arguments that name it. -/
theorem BuildArgs.Names.wf_iff (h : a.Names c) : c.wf = true ↔ Machine.LegalArgs a := by
  rw [c.wf_iff, h.dpadOk_iff, h.ledDistinct_iff, h.ledHoldsNoFlag_iff, h.fieldsInRange_iff, h.regionsRise_iff,
    h.fieldsDisjoint_iff, h.regionSizes_iff]
  constructor
  · rintro ⟨⟨hdpad, hbuttons⟩, hled, hflag, ⟨hfields, hregions⟩, ⟨hrise, hlead⟩, hdisjoint, hsizes⟩
    obtain ⟨hlen, hpos, hidx⟩ := h.inRange
    have hfour : Machine.NatPos a.dpadUp ∧ Machine.NatPos a.dpadRight ∧ Machine.NatPos a.dpadDown ∧
        Machine.NatPos a.dpadLeft := by simpa [BuildArgs.dpad] using hpos
    exact ⟨hlen, hfour, hdpad, hbuttons, hidx, hled, hflag, hfields, hregions, hrise, hsizes, hlead, hdisjoint⟩
  · exact fun g => ⟨⟨g.dpadDistinct, g.dpadInButtons⟩, g.ledDistinct, g.ledNoFlag, ⟨g.fieldsInRange, g.regionsInRange⟩,
      ⟨g.regionsRise, g.leadFirst⟩, g.fieldsDisjoint, g.regionSizes⟩

end

/-- Arguments give a configuration exactly when they are legal. -/
theorem BuildArgs.exists_config?_iff (a : BuildArgs) : (∃ c, a.config? = some c) ↔ Machine.LegalArgs a := by
  simp only [BuildArgs.config?_eq_some_iff]
  constructor
  · rintro ⟨c, hnames, hwf⟩
    exact hnames.wf_iff.mp hwf
  · intro h
    obtain ⟨c, hnames⟩ := h.exists_names
    exact ⟨c, hnames, hnames.wf_iff.mpr h⟩

theorem BuildArgs.config?_eq_none_iff (a : BuildArgs) : a.config? = none ↔ ¬Machine.LegalArgs a := by
  rw [← a.exists_config?_iff, ← Option.isSome_iff_exists, Option.not_isSome_iff_eq_none]

end Sys2Proof

namespace Sys2Proof.Machine

theorem State.build_of_config? {a : BuildArgs} {c : Config} (h : a.config? = some c) :
    State.build a = .next (State.resetWith c) := by simp [State.build, h]

theorem State.build_of_config?_none {a : BuildArgs} (h : a.config? = none) :
    State.build a = .refused .configRefused := by simp [State.build, h]

/-- Settles O53: arguments give the configuration they name, if it passes the check, and the check of that configuration is
the check of the arguments. -/
theorem buildRefusesIllegalArguments : Obligations.BuildRefusesIllegalArguments := by
  refine fun a => ⟨fun hlegal => ?_, fun hillegal => State.build_of_config?_none (a.config?_eq_none_iff.mpr hillegal)⟩
  obtain ⟨c, hc⟩ := a.exists_config?_iff.mpr hlegal
  obtain ⟨h, hwf⟩ := BuildArgs.config?_eq_some_iff.mp hc
  exact ⟨c, State.build_of_config? hc, hwf, h.selId, h.leadLen, h.fieldMap, h.touchValidActive, h.pwOrder,
    h.touchLayout, h.bufReset, h.dpad, h.led⟩

/-! ### Several instances -/

/-- A list is mapped to nothing exactly when one of its members is. -/
theorem mapM_eq_none_iff {α β : Type} {f : α → Option β} {l : List α} :
    l.mapM f = none ↔ ∃ x ∈ l, f x = none := by
  induction l with
  | nil => simp
  | cons x xs ih =>
    rw [List.mapM_cons]
    cases hx : f x with
    | none => simp [hx]
    | some y =>
      cases hxs : xs.mapM f with
      | none => simpa [hx, hxs] using ih
      | some ys => simpa [hx, hxs] using ih

/-- Several instances lack a configuration exactly when the arguments of one are illegal. -/
theorem mapM_config?_eq_none_iff (args : List BuildArgs) :
    args.mapM BuildArgs.config? = none ↔ ∃ a ∈ args, ¬LegalArgs a := by
  simp only [mapM_eq_none_iff, BuildArgs.config?_eq_none_iff]

/-- The configurations of several instances have the SEL_IDs of their arguments, in order. -/
theorem map_selId_of_mapM {args : List BuildArgs} {cs : List Config} (h : args.mapM BuildArgs.config? = some cs) :
    (cs.map fun c => c.selId) = args.map fun a => a.selId := by
  refine List.ext_getElem? fun k => ?_
  simp only [List.getElem?_map]
  cases ha : args[k]? with
  | none =>
    have hlen : args.length ≤ k := List.getElem?_eq_none_iff.mp ha
    rw [List.getElem?_eq_none (by rw [length_of_mapM h]; exact hlen)]
    rfl
  | some a =>
    obtain ⟨c, hk, hc⟩ := getElem?_of_mapM h ha
    obtain ⟨hnames, -⟩ := BuildArgs.config?_eq_some_iff.mp hc
    simp [hk, hnames.selId]

/-- Settles O55: legal arguments give one configuration each, with their own SEL_IDs, and a fleet is built from these if
the SEL_IDs are distinct. -/
theorem duplicateSelectLinesAreRefused : Obligations.DuplicateSelectLinesAreRefused := by
  intro args
  obtain ⟨hnone, hbuild⟩ | ⟨cs, hcs, hbuild⟩ := Fleet.build_cases args
  · obtain ⟨a, ha, hillegal⟩ := (mapM_config?_eq_none_iff args).mp hnone
    rw [hbuild]
    exact ⟨fun h => absurd (h a ha) hillegal, fun h => absurd (h a ha) hillegal, fun _ => ⟨_, rfl⟩, nofun⟩
  have hlegal : ¬∃ a ∈ args, ¬LegalArgs a := by simp [← mapM_config?_eq_none_iff, hcs]
  rw [map_selId_of_mapM hcs] at hbuild
  obtain ⟨hnodup, hbuild⟩ | ⟨hdup, hbuild⟩ := hbuild <;> rw [hbuild]
  · refine ⟨fun _ _ => ⟨cs, rfl, length_of_mapM hcs, fun k a ha => ?_⟩, fun _ hdup => absurd hnodup hdup,
      fun h => absurd h hlegal, fun f hf => ?_⟩
    · obtain ⟨c, hk, hc⟩ := getElem?_of_mapM hcs ha
      obtain ⟨hnames, hwf⟩ := BuildArgs.config?_eq_some_iff.mp hc
      exact ⟨c, hk, hwf, hnames.selId, State.build_of_config? hc⟩
    · cases hf
      have hsel : ((cs.map State.resetWith).map fun s => s.cfg.selId) = args.map fun a => a.selId := by
        rw [← map_selId_of_mapM hcs, List.map_map]
        rfl
      exact ⟨hsel ▸ hnodup, by rw [List.length_map, length_of_mapM hcs]⟩
  · exact ⟨fun _ hnodup => absurd hnodup hdup, fun _ _ => rfl, fun h => absurd h hlegal, nofun⟩

/-- While at most one transaction is in progress, it is the one that holds the host thread. -/
theorem Fleet.OneTransaction.busy_eq {f : Fleet} {i : Nat} {s : State} (h : f.OneTransaction)
    (hs : f.blocks[i]? = some s) (hp : s.phase = .transacting) : f.busy = some i := by
  unfold Fleet.busy
  cases hb : f.blocks.findIdx? fun u => u.phase == .transacting with
  | none => simpa [hp] using List.findIdx?_eq_none_iff.mp hb s (List.mem_of_getElem? hs)
  | some j =>
    obtain ⟨hj, hpj, -⟩ := List.findIdx?_eq_some_iff_getElem.mp hb
    rw [h j i _ s (List.getElem?_eq_getElem hj) hs (by simpa using hpj) hp]

/-- Everything a step of the fleet that answers a next fleet can have done: a step of the block whose turn it is. -/
theorem Fleet.step_cases {f g : Fleet} {k : Nat} (h : f.step k = .next g) :
    ∃ s t, f.blocks[f.busy.getD k]? = some s ∧ Machine.step s = .next t ∧ g = ⟨f.blocks.set (f.busy.getD k) t⟩ := by
  unfold Fleet.step at h
  cases hs : f.blocks[f.busy.getD k]? with
  | none => simp [hs] at h
  | some s =>
    cases ht : Machine.step s with
    | next t => exact ⟨s, t, rfl, ht, by simpa [hs, ht, eq_comm] using h⟩
    | fault r => simp [hs, ht] at h
    | refused r => simp [hs, ht] at h

/-- Settles O54: a step sets one entry of the list of instances, and a transaction in progress elsewhere would have had the
turn. -/
theorem instancesShareNoState : Obligations.InstancesShareNoState := by
  intro f g k h
  obtain ⟨s, t, hs, ht, rfl⟩ := Fleet.step_cases h
  have hother (i : Nat) (hi : i ≠ f.busy.getD k) : (f.blocks.set (f.busy.getD k) t)[i]? = f.blocks[i]? :=
    List.getElem?_set_ne hi.symm
  obtain ⟨hlt, -⟩ := List.getElem?_eq_some_iff.mp hs
  refine ⟨⟨_, s, t, hs, ht, List.getElem?_set_self hlt, hother⟩, fun hone => ?_⟩
  have hturn (i : Nat) (u : State) (hu : (f.blocks.set (f.busy.getD k) t)[i]? = some u)
      (hp : u.phase = .transacting) : i = f.busy.getD k := by
    by_contra hi
    rw [hother i hi] at hu
    rw [hone.busy_eq hu hp] at hi
    exact hi rfl
  intro i j u v hu hv hpu hpv
  rw [hturn i u hu hpu, hturn j v hv hpv]

end Sys2Proof.Machine
end

section
/-! PROOFS. The statements of the family spec/70_reset_and_hazards.md: the end of a transaction over a bus that answers,
what reset leaves, the wait for a command, and the code that host software rebuilds from decoded flags. The first rests on
one fact: while the bus holds a byte for every beat that is left, the engine either ends the transaction or takes a stall
from the bus and waits with as many bytes as it still needs. -/

namespace Sys2Proof.Machine

/-! ### A transaction over a bus that answers (R189) -/

/-- How many bytes the answers hold: the stalls do not count. -/
def byteCount (q : List BusReply) : Nat := (q.filter fun r => r != .stall).length

@[simp] theorem byteCount_nil : byteCount [] = 0 := rfl

@[simp] theorem byteCount_stall (q : List BusReply) : byteCount (.stall :: q) = byteCount q := rfl

@[simp] theorem byteCount_byte (b : Byte) (q : List BusReply) : byteCount (.byte b :: q) = byteCount q + 1 := rfl

/-- The transaction has ended. -/
def State.Ended (s : State) : Prop := s.phase = .idle ∧ s.beat = inSize

/-- A transaction waits, and its bus holds a byte for each beat that is left. -/
def State.Supplied (s : State) : Prop := s.phase = .transacting ∧ inSize - s.beat ≤ byteCount s.bus

/-- A byte completes the beat, and the run goes on with one beat less. -/
theorem runBeats_byte {n : Nat} {s : State} {miso : Byte} {rest : List BusReply} (h : s.OutWritten)
    (hb : s.bus = .byte miso :: rest) :
    runBeats (n + 1) s = runBeats n ((s.withBus rest).completeBeat (s.sentByte s.beat) miso) := by
  simp [runBeats, State.mosi_eq h, hb]

/-- A run of all the beats that are left, on a supplied bus: it ends the transaction, or a stall leaves the block supplied
with fewer answers to come. -/
theorem State.Supplied.runBeats {n : Nat} {s : State} (h : s.Supplied) (hw : s.OutWritten) (hn : s.beat + n = inSize) :
    (runBeats n s).Ended ∨ (runBeats n s).Supplied ∧ (runBeats n s).bus.length < s.bus.length := by
  obtain ⟨hp, hbytes⟩ := h
  induction n generalizing s with
  | zero => exact .inl ⟨rfl, hn⟩
  | succ n ih =>
    cases hbus : s.bus with
    | nil => rw [hbus, byteCount_nil] at hbytes; omega
    | cons r rest =>
      cases r with
      | stall =>
        rw [runBeats_stall hw hbus]
        exact .inr ⟨⟨hp, by simpa [hbus] using hbytes⟩, by simp⟩
      | byte miso =>
        rw [hbus, byteCount_byte] at hbytes
        have hbeat : s.beat + 1 + n = inSize := by omega
        have hleft : inSize - (s.beat + 1) ≤ byteCount rest := by omega
        rw [runBeats_byte hw hbus]
        obtain hended | ⟨hagain, hlt⟩ := ih (s := (s.withBus rest).completeBeat (s.sentByte s.beat) miso) hw hbeat hp hleft
        · exact .inl hended
        · exact .inr ⟨hagain, hlt.trans (Nat.lt_succ_self rest.length)⟩

/-- What a block needs in order to complete its transaction; the engine keeps it as long as the transaction lasts. -/
structure State.WillComplete (s : State) : Prop where
  inv : s.Inv
  no_fault : s.fault = none
  no_overlap : s.NoOverlap
  supplied : s.Supplied

/-- The engine raises nothing; it ends the transaction, or the block is to wait again for fewer answers. -/
theorem State.WillComplete.engine {s : State} (h : s.WillComplete) :
    s.engine.fault = none ∧
      (s.engine.Ended ∨ s.engine.WillComplete ∧ s.engine.bus.length < s.bus.length) := by
  have hp := h.supplied.1
  have hw := h.inv.out_written hp
  have hfault : s.engine.fault = none := (runBeats_fault _ hw).trans h.no_fault
  obtain ⟨-, -, -, hissued⟩ := runBeats_frame (inSize - s.beat) s
  refine ⟨hfault, (h.supplied.runBeats hw (Nat.add_sub_of_le h.inv.beat_le)).imp_right fun ⟨hsupplied, hlt⟩ => ?_⟩
  exact ⟨⟨h.inv.engine hp, hfault, fun a ha => h.no_overlap a (hissued ▸ ha), hsupplied⟩, hlt⟩

theorem run_succ_of_step {s u : State} (h : step s = .next u) (k : Nat) :
    Host.Core.run core (k + 1) s = Host.Core.run core k u := by
  have hstep : core.step s = .next u := h
  simp only [Host.Core.run, hstep]

/-- Every wait takes one answer from the bus, so there are no more waits than answers. -/
theorem State.WillComplete.run {s : State} (h : s.WillComplete) :
    ∃ k t, Host.Core.run core k s = .next t ∧ t.fault = none ∧ t.Ended := by
  have hstep (k : Nat) := run_succ_of_step (step_eq_engine h.no_fault h.supplied.1 h.no_overlap) k
  obtain ⟨hfault, hended | ⟨hagain, hlt⟩⟩ := h.engine
  · exact ⟨1, s.engine, hstep 0, hfault, hended⟩
  · obtain ⟨k, t, hrun, ht⟩ := State.WillComplete.run hagain
    exact ⟨k + 1, t, (hstep k).trans hrun, ht⟩
termination_by s.bus.length

/-- Settles O28: each step is the engine going on, which ends the transaction or waits on a shorter list of answers. -/
theorem fairBusCompletesTheTransaction : Obligations.FairBusCompletesTheTransaction := by
  intro s hs hf hp hq hbytes
  have h : s.WillComplete := ⟨hs, hf, hq, hp, hbytes⟩
  obtain ⟨k, t, hrun, hfault, hidle, hbeat⟩ := h.run
  exact ⟨k, t, hrun, hidle, hbeat, hfault⟩

/-! ### What reset leaves (R173, R176 to R180) -/

/-- A list of cells that all hold `v` reads as `v` at its addresses and as ⊥ elsewhere. -/
theorem Memory.read_map_const (addrs : List Nat) (v : Byte) (a : Nat) :
    Memory.read (addrs.map fun k => (k, v)) a = if a ∈ addrs then some v else none := by
  induction addrs with
  | nil => rfl
  | cons k rest ih =>
    by_cases h : a = k
    · simp [Memory.read, h]
    · simp [Memory.read, h, ih]

theorem Memory.read_atReset (b : BufReset) {n a : Nat} (ha : a < n) :
    (Memory.atReset b n).read a = if b = .zero then some 0#8 else none := by
  cases b with
  | unwritten => rfl
  | zero => simp [Memory.atReset, Memory.read_map_const, ha]

theorem Memory.wfFrom_map_range' {n lo k : Nat} (v : Byte) (h : lo + k ≤ n) :
    Memory.wfFrom n lo ((List.range' lo k).map fun a => (a, v)) = true := by
  induction k generalizing lo with
  | zero => rfl
  | succ k ih =>
    have hlt : lo < n := by omega
    simp [List.range'_succ, Memory.wfFrom, hlt, ih (show lo + 1 + k ≤ n by omega)]

theorem Memory.wf_atReset (b : BufReset) (n : Nat) : (Memory.atReset b n).wf n = true := by
  cases b with
  | unwritten => rfl
  | zero =>
    rw [Memory.atReset, List.range_eq_range']
    exact Memory.wfFrom_map_range' 0#8 (Nat.zero_add n).le

/-- Settles O52: the buffers read as `Memory.atReset` gives them, and the registers stand as reset sets them. -/
theorem resetState : Obligations.ResetState :=
  ⟨fun _ => ⟨rfl, rfl⟩, fun _ =>
    ⟨⟨rfl, rfl, rfl⟩, ⟨rfl, rfl⟩, fun _ => Memory.read_atReset _, fun _ => Memory.read_atReset _, rfl, rfl⟩⟩

/-- The choices that complete the site's parameters are no part of the check. -/
theorem Config.wf_built : Config.built.wf = true := Config.site.ok

theorem State.inv_resetWith {c : Config} (h : c.wf = true) : (State.resetWith c).Inv where
  out_wf := Memory.wf_atReset c.bufReset outSize
  inb_wf := Memory.wf_atReset c.bufReset inSize
  cfg_wf := h
  beat_le := Nat.zero_le _
  phase_sel := ⟨nofun, nofun⟩
  beat_lt := nofun
  out_written := nofun
  received := nofun
  protocol := rfl

/-- Settles O51: no transaction is in progress, the buffers are canonical, and the site's configuration passes the check. -/
theorem resetMeetsTheInvariant : Obligations.ResetMeetsTheInvariant :=
  ⟨State.inv_resetWith Config.wf_built, fun _ => State.inv_resetWith⟩

/-! ### Waiting for a command (R171) -/

/-- With an empty queue, a block without a fault goes on by itself. -/
theorem step_of_no_command {s : State} (hf : s.fault = none) (hq : s.issued = []) : step s = .next s.proceed := by
  simp [step, fetch, State.nextArrival, hf, hq]

theorem step_ready_of_no_command {s : State} (h : s.Ready) (hq : s.issued = []) : step s = .next s := by
  obtain ⟨hf, hp⟩ := h
  rw [step_of_no_command hf hq, State.proceed, hp]

/-- Settles O10: with no command an idle block has nothing to go on with, and reset leaves such a block. -/
theorem idleBlockWaitsForACommand : Obligations.IdleBlockWaitsForACommand :=
  ⟨fun _ => step_ready_of_no_command, step_ready_of_no_command ⟨rfl, rfl⟩ rfl⟩

/-! ### The code that host software rebuilds (R185) -/

/-- No two of the codes 0 to 7 decode to the same flags. -/
theorem dpadTable_rebuild_of_lt : ∀ c : BitVec 4, c.toNat < 8 → (dpadTable c).rebuild = some c := by decide

/-- A code from 8 on decodes to no direction, and none of the codes 0 to 7 does. -/
theorem dpadTable_rebuild_of_ge : ∀ c : BitVec 4, 8 ≤ c.toNat → (dpadTable c).rebuild = none := by decide

/-- Settles O37, for the codes with a direction and for those without one. -/
theorem codeRebuiltFromDecodedFlags : Obligations.CodeRebuiltFromDecodedFlags := by
  intro c
  split_ifs with h
  · exact dpadTable_rebuild_of_lt c h
  · exact dpadTable_rebuild_of_ge c (Nat.not_lt.mp h)

end Sys2Proof.Machine
end
